-- ==== Sys2Proof/Word.lean ====
section
/-! DEFINITION. The value types of the hardware_simulation ISA (spec/00_scope.md R6, R11): words, bytes, register indices. -/

namespace Sys2Proof

/-- R11: a word is an unsigned integer in 0 .. 2^32 - 1. Registers, the PC and instruction words are words. -/
abbrev Word := BitVec 32

/-- R11: a byte is an unsigned integer in 0 .. 255. -/
abbrev Byte := BitVec 8

/-- R24: a 3-bit register-index field always names one of the eight registers. -/
abbrev RegIx := BitVec 3

end Sys2Proof
end

