-- ==== Sys2Proof/Syntax.lean ====
section
/-! DEFINITION. The instructions: one constructor per row of spec/opcode_table.json, its fields as spec/30_encoding.md R85 to R90
give them. A constructor holds EVERY bit of its word, the ignored ones too: `fault_info` records the whole word (R201),
so an instruction must determine its word (log entry 2). -/

namespace Sys2Proof

/-- The fifteen instructions of R100 and the illegal opcode 15 of R101. -/
inductive Instr where
  /-- JMP (R85, R121): use-immediate flag, base register, conditional-skip flag, condition register, offset field. -/
  | jmp (i : Bool) (b : RegIx) (c : Bool) (cr : RegIx) (o : BitVec 20)
  /-- LD (R86, R134): width selector, use-immediate flag, destination register, base field, offset field. -/
  | ld (ws : BitVec 2) (i : Bool) (r : RegIx) (bf : RegIx) (o : BitVec 19)
  /-- PUT (R86, R135): width selector, use-immediate flag, source register, base field, offset field. -/
  | put (ws : BitVec 2) (i : Bool) (r : RegIx) (bf : RegIx) (o : BitVec 19)
  /-- SET (R87, R151): destination register, sign-extend flag, immediate. -/
  | set (rd : RegIx) (sx : Bool) (imm : BitVec 24)
  /-- SETU (R88, R153): destination register, immediate, the 18 ignored bits of the word. -/
  | setu (rd : RegIx) (imm : BitVec 7) (ign : BitVec 18)
  /-- ADD (R89, R163): destination, first source, second source, use-immediate flag, immediate. -/
  | add (rd ra rb : RegIx) (i : Bool) (imm : BitVec 18)
  /-- SUB (R89, R164). -/
  | sub (rd ra rb : RegIx) (i : Bool) (imm : BitVec 18)
  /-- MUL (R89, R165). -/
  | mul (rd ra rb : RegIx) (i : Bool) (imm : BitVec 18)
  /-- DIV (R89, R166). -/
  | div (rd ra rb : RegIx) (i : Bool) (imm : BitVec 18)
  /-- MOD (R89, R167). -/
  | mod (rd ra rb : RegIx) (i : Bool) (imm : BitVec 18)
  /-- AND (R89, R181). -/
  | and (rd ra rb : RegIx) (i : Bool) (imm : BitVec 18)
  /-- OR (R89, R182). -/
  | or (rd ra rb : RegIx) (i : Bool) (imm : BitVec 18)
  /-- XOR (R89, R183). -/
  | xor (rd ra rb : RegIx) (i : Bool) (imm : BitVec 18)
  /-- BSR (R90, R192): destination, source, shift amount, rotate flag, the 16 ignored bits of the word. -/
  | bsr (rd rs : RegIx) (k : BitVec 5) (rot : Bool) (ign : BitVec 16)
  /-- BSL (R90, R193). -/
  | bsl (rd rs : RegIx) (k : BitVec 5) (rot : Bool) (ign : BitVec 16)
  /-- The illegal opcode 15 (R101): the word's other 28 bits. -/
  | illegal (rest : BitVec 28)
deriving DecidableEq, Repr

end Sys2Proof
end

