-- ==== Sys2Proof/WellFormed.lean ====
section
/-! DEFINITION. Which instructions are legal (spec/30_encoding.md R101, R102, R104). Field widths and register numbers are
legal by their types (R24); an ill-formed instruction still runs: it raises the fatal fault the spec gives it. -/

namespace Sys2Proof

/-- R104: every word is one of the fifteen instructions, or illegal by R101 (opcode 15), or, in format M, illegal by
R102 (width selector 3). -/
def Instr.wf : Instr → Bool
  | .jmp _ _ _ _ _ => true
  | .ld ws _ _ _ _ => decide (ws ≠ 3#2)
  | .put ws _ _ _ _ => decide (ws ≠ 3#2)
  | .set _ _ _ => true
  | .setu _ _ _ => true
  | .add _ _ _ _ _ => true
  | .sub _ _ _ _ _ => true
  | .mul _ _ _ _ _ => true
  | .div _ _ _ _ _ => true
  | .mod _ _ _ _ _ => true
  | .and _ _ _ _ _ => true
  | .or _ _ _ _ _ => true
  | .xor _ _ _ _ _ => true
  | .bsr _ _ _ _ _ => true
  | .bsl _ _ _ _ _ => true
  | .illegal _ => false

end Sys2Proof
end

