-- ==== Sys2Proof/Decode.lean ====
section
/-! DEFINITION. Decoding a 32-bit word (spec/30_encoding.md R80 to R91, R100 to R103) and, after it, the encoder (R111). CORE
receives the word whole (spec/20_memory.md R55), so there is no byte order here. -/

namespace Sys2Proof

/-- R81: `fld(w, s, n) = (w >> (s-1)) mod 2^n`, the source's field extractor, its start numbered from 1 (R8). -/
def fld (w : Word) (start width : Nat) : BitVec width := w.extractLsb' (start - 1) width

/-- A one-bit field as a flag; `pos` is the source's bit number, from 1 (R8). -/
def flag (w : Word) (pos : Nat) : Bool := w.getLsbD (pos - 1)

/-- R84, R100: dispatch on doc bits 1-4, then each format's fields at the doc positions of R85 to R90. Total: the only
opcode value besides 0 .. 14 is 15, the illegal row of the table (R101). -/
def decode (w : Word) : Instr :=
  match (fld w 1 4).toNat with
  | 0 => .jmp (flag w 5) (fld w 6 3) (flag w 9) (fld w 10 3) (fld w 13 20)
  | 1 => .ld (fld w 5 2) (flag w 7) (fld w 8 3) (fld w 11 3) (fld w 14 19)
  | 2 => .put (fld w 5 2) (flag w 7) (fld w 8 3) (fld w 11 3) (fld w 14 19)
  | 3 => .set (fld w 5 3) (flag w 8) (fld w 9 24)
  | 4 => .setu (fld w 5 3) (fld w 8 7) (fld w 15 18)
  | 5 => .add (fld w 5 3) (fld w 8 3) (fld w 11 3) (flag w 14) (fld w 15 18)
  | 6 => .sub (fld w 5 3) (fld w 8 3) (fld w 11 3) (flag w 14) (fld w 15 18)
  | 7 => .mul (fld w 5 3) (fld w 8 3) (fld w 11 3) (flag w 14) (fld w 15 18)
  | 8 => .div (fld w 5 3) (fld w 8 3) (fld w 11 3) (flag w 14) (fld w 15 18)
  | 9 => .mod (fld w 5 3) (fld w 8 3) (fld w 11 3) (flag w 14) (fld w 15 18)
  | 10 => .and (fld w 5 3) (fld w 8 3) (fld w 11 3) (flag w 14) (fld w 15 18)
  | 11 => .or (fld w 5 3) (fld w 8 3) (fld w 11 3) (flag w 14) (fld w 15 18)
  | 12 => .xor (fld w 5 3) (fld w 8 3) (fld w 11 3) (flag w 14) (fld w 15 18)
  | 13 => .bsr (fld w 5 3) (fld w 8 3) (fld w 11 5) (flag w 16) (fld w 17 16)
  | 14 => .bsl (fld w 5 3) (fld w 8 3) (fld w 11 5) (flag w 16) (fld w 17 16)
  | _ => .illegal (fld w 5 28)

/-- Why a bit string is not a legal instruction. -/
inductive DecodeError where
  /-- R101: opcode 15. -/
  | invalidOpcode (w : Word)
  /-- R102: LD or PUT with width selector 3. -/
  | invalidWidthSelector (w : Word)
  /-- R80: every instruction is exactly one 32-bit word; this bit string is longer. -/
  | longerThanOneWord (nbits : Nat)
deriving DecidableEq, Repr

/-- R104: the legal instruction a word holds, or by name why it holds none. CORE itself runs `decode`: an illegal word is
presented to it like any other and raises its fatal fault when it is executed (R202, R203). -/
def decodeLegal (w : Word) : Except DecodeError Instr :=
  match decode w with
  | .illegal _ => .error (.invalidOpcode w)
  | .ld ws i r bf o => if ws = 3#2 then .error (.invalidWidthSelector w) else .ok (.ld ws i r bf o)
  | .put ws i r bf o => if ws = 3#2 then .error (.invalidWidthSelector w) else .ok (.put ws i r bf o)
  | other => .ok other

/-- The word whose `nbits` low bits are those of `w` and whose other bits are 0 (the numbering of
spec/opcode_table.json). -/
def tableWord (nbits w : Nat) : Word := BitVec.ofNat 32 (w % 2 ^ nbits)

/-- R80: the instruction of a bit string of at most one word. -/
def decodeBits (nbits w : Nat) : Except DecodeError Instr :=
  if nbits ≤ 32 then .ok (decode (tableWord nbits w)) else .error (.longerThanOneWord nbits)

/-- The instruction the decoder reads from a word numbered as spec/opcode_table.json numbers it. -/
def decodeTableWord (nbits w : Nat) : Option Instr :=
  match decodeBits nbits w with
  | .ok i => some i
  | .error _ => none

/-- R100: an instruction's opcode number. -/
def Instr.opcode : Instr → BitVec 4
  | .jmp _ _ _ _ _ => 0#4
  | .ld _ _ _ _ _ => 1#4
  | .put _ _ _ _ _ => 2#4
  | .set _ _ _ => 3#4
  | .setu _ _ _ => 4#4
  | .add _ _ _ _ _ => 5#4
  | .sub _ _ _ _ _ => 6#4
  | .mul _ _ _ _ _ => 7#4
  | .div _ _ _ _ _ => 8#4
  | .mod _ _ _ _ _ => 9#4
  | .and _ _ _ _ _ => 10#4
  | .or _ _ _ _ _ => 11#4
  | .xor _ _ _ _ _ => 12#4
  | .bsr _ _ _ _ _ => 13#4
  | .bsl _ _ _ _ _ => 14#4
  | .illegal _ => 15#4

/-- R111: a field value moved to its 0-based position, `v << at`. -/
def place {n : Nat} (v : BitVec n) (pos : Nat) : Word := v.setWidth 32 <<< pos

/-- A flag moved to its 0-based position. -/
def placeFlag (f : Bool) (pos : Nat) : Word := place (BitVec.ofBool f) pos

/-- R111, format J. -/
def encodeJ (op : BitVec 4) (i : Bool) (b : RegIx) (c : Bool) (cr : RegIx) (o : BitVec 20) : Word :=
  place op 0 ||| placeFlag i 4 ||| place b 5 ||| placeFlag c 8 ||| place cr 9 ||| place o 12

/-- R111, format M. -/
def encodeM (op : BitVec 4) (ws : BitVec 2) (i : Bool) (r bf : RegIx) (o : BitVec 19) : Word :=
  place op 0 ||| place ws 4 ||| placeFlag i 6 ||| place r 7 ||| place bf 10 ||| place o 13

/-- R111, format S. -/
def encodeS (op : BitVec 4) (rd : RegIx) (sx : Bool) (imm : BitVec 24) : Word :=
  place op 0 ||| place rd 4 ||| placeFlag sx 7 ||| place imm 8

/-- R111, format U, and the ignored bits of R88. -/
def encodeU (op : BitVec 4) (rd : RegIx) (imm : BitVec 7) (ign : BitVec 18) : Word :=
  place op 0 ||| place rd 4 ||| place imm 7 ||| place ign 14

/-- R111, format A. -/
def encodeA (op : BitVec 4) (rd ra rb : RegIx) (i : Bool) (imm : BitVec 18) : Word :=
  place op 0 ||| place rd 4 ||| place ra 7 ||| place rb 10 ||| placeFlag i 13 ||| place imm 14

/-- R111, format H, and the ignored bits of R90. -/
def encodeH (op : BitVec 4) (rd rs : RegIx) (k : BitVec 5) (rot : Bool) (ign : BitVec 16) : Word :=
  place op 0 ||| place rd 4 ||| place rs 7 ||| place k 10 ||| placeFlag rot 15 ||| place ign 16

/-- R111: the word of an instruction. -/
def encode : Instr → Word
  | .jmp i b c cr o => encodeJ 0#4 i b c cr o
  | .ld ws i r bf o => encodeM 1#4 ws i r bf o
  | .put ws i r bf o => encodeM 2#4 ws i r bf o
  | .set rd sx imm => encodeS 3#4 rd sx imm
  | .setu rd imm ign => encodeU 4#4 rd imm ign
  | .add rd ra rb i imm => encodeA 5#4 rd ra rb i imm
  | .sub rd ra rb i imm => encodeA 6#4 rd ra rb i imm
  | .mul rd ra rb i imm => encodeA 7#4 rd ra rb i imm
  | .div rd ra rb i imm => encodeA 8#4 rd ra rb i imm
  | .mod rd ra rb i imm => encodeA 9#4 rd ra rb i imm
  | .and rd ra rb i imm => encodeA 10#4 rd ra rb i imm
  | .or rd ra rb i imm => encodeA 11#4 rd ra rb i imm
  | .xor rd ra rb i imm => encodeA 12#4 rd ra rb i imm
  | .bsr rd rs k rot ign => encodeH 13#4 rd rs k rot ign
  | .bsl rd rs k rot ign => encodeH 14#4 rd rs k rot ign
  | .illegal rest => place 15#4 0 ||| place rest 4

end Sys2Proof
end

