-- ==== Sys2Proof/Machine/Cells.lean ====
section
/-! DEFINITION. A partial function from addresses to values as a list in one canonical form, addresses strictly rising: what
the data memory (Memory.lean) and the host's instruction store (State.lean) are held in. -/

namespace Sys2Proof.Machine

/-- Addresses strictly rising: the canonical form. -/
abbrev CellsRising {α : Type} (c : List (Nat × α)) : Prop := c.Pairwise (fun x y => x.1 < y.1)

/-- The value at an address, if the list holds one. -/
def cellLookup {α : Type} : List (Nat × α) → Nat → Option α
  | [], _ => none
  | (k, v) :: rest, a => if a = k then some v else cellLookup rest a

/-- The list without the address. -/
def cellErase {α : Type} (c : List (Nat × α)) (a : Nat) : List (Nat × α) := c.filter (fun e => decide (e.1 ≠ a))

/-- The list with one more entry, in its place in the order. -/
def cellInsert {α : Type} : List (Nat × α) → Nat → α → List (Nat × α)
  | [], a, v => [(a, v)]
  | (k, u) :: rest, a, v => if a < k then (a, v) :: (k, u) :: rest else (k, u) :: cellInsert rest a v

/-- The list with the address's value replaced. -/
def cellPut {α : Type} (c : List (Nat × α)) (a : Nat) (v : α) : List (Nat × α) := cellInsert (cellErase c a) a v

end Sys2Proof.Machine
end

