-- ==== Sys2Proof/Machine/Memory.lean ====
section
/-! DEFINITION. The data memory `Mem` (spec/10_state.md R31, R32) and its two access primitives `MemRead` and `MemWrite`
(spec/20_memory.md R53, R54), over bytes in one canonical form. -/

namespace Sys2Proof.Machine

/-- R6, R31: 1,048,576 bytes, addresses 0 .. 1,048,575. -/
def memSize : Nat := 1048576

/-- R40: after reset every byte of `Mem` is 0, so an address the list does not name reads as 0. -/
def absentByte : Byte := 0#8

/-- The bytes that differ from `absentByte`, by rising address. -/
abbrev Memory := List Host.Cell

/-- The canonical form: addresses rising and inside the memory (R31), no entry equal to what an unlisted address reads as. -/
abbrev Memory.wf (m : Memory) : Prop := CellsRising m ∧ ∀ c ∈ m, c.1 < memSize ∧ c.2 ≠ absentByte

/-- R31: the indexed byte read. Accesses are admitted by R51 before they come here. -/
def Memory.readByte (m : Memory) (a : Nat) : Byte := (cellLookup m a).getD absentByte

/-- R31: the indexed byte write. -/
def Memory.writeByte (m : Memory) (a : Nat) (b : Byte) : Memory :=
  if b = absentByte then cellErase m a else cellPut m a b

/-- The big-endian value of the `n` bytes at `ea`: the byte at the lowest address is the most significant (R55). -/
def Memory.bytesValue (m : Memory) (ea : Nat) : Nat → Nat
  | 0 => 0
  | n + 1 => m.bytesValue ea n * 256 + (m.readByte (ea + n)).toNat

/-- R53: `MemRead(ea, n)`, zero-extended to a word. -/
def Memory.read (m : Memory) (ea n : Nat) : Word := BitVec.ofNat 32 (m.bytesValue ea n)

/-- R54: `MemWrite(ea, n, v)`: the low `8n` bits of `v`, the least significant byte at the highest address. -/
def Memory.write (m : Memory) (ea : Nat) : Nat → Word → Memory
  | 0, _ => m
  | n + 1, v => Memory.writeByte (Memory.write m ea n (v >>> 8)) (ea + n) (v.setWidth 8)

end Sys2Proof.Machine
end

