-- ==== Sys2Proof/Config.lean ====
section
/-! DEFINITION. The named parameters of spec/00_scope.md R7: what an implementation or its host fixes and no instruction changes.
`IMEM` and `RESET_STATE`, the other two parameters of R7, are a field of State and State.reset. -/

namespace Sys2Proof

/-- R7, R122: `JMP_SKIP_ON`, the value of the condition register on which a JMP with its skip flag set is skipped. -/
inductive SkipSense where
  /-- The default: skipped when the condition register is not zero (R121). -/
  | nonzero
  /-- The alternative reading of R122: skipped when the condition register is zero. -/
  | zero
deriving DecidableEq, Repr

/-- R7, R132: `LDPUT_BASE`, what the base field of LD and PUT contributes to the effective address. -/
inductive BaseSource where
  /-- The default: the number in the field itself (R132, R133). -/
  | field
  /-- The alternative of R132: the value of the register the field names. -/
  | register
deriving DecidableEq, Repr

/-- The parameters one machine is built with. State carries them (log entry 1), so that a statement about every state
is a statement about every choice of them. -/
structure Params where
  /-- `JMP_SKIP_ON` (R122). -/
  jmpSkipOn : SkipSense
  /-- `LDPUT_BASE` (R132). -/
  ldPutBase : BaseSource
  /-- `PC_STEP` (R238): what the host adds to the PC after an instruction that did not write it; R7 says it is positive. -/
  pcStep    : Word
deriving DecidableEq, Repr

end Sys2Proof
end

