-- ==== Sys2Proof/Machine/Parameters.lean ====
section
/-! DEFINITION. The values State.reset takes: the parameters' reference values (spec/00_scope.md R7) and the reset values of
spec/10_state.md R40. -/

namespace Sys2Proof.Machine

/-- R7: the defaults every rule, vector and program of the spec uses; `PC_STEP` has the reference value 1 (R238). -/
def referenceParams : Params := ⟨.nonzero, .field, 1#32⟩

/-- R40: every general register is 0 after reset. -/
def resetRegister : Word := 0#32

/-- R40, R232: the PC is 0 after reset. -/
def resetPc : Word := 0#32

/-- R40: `fault_code` is specified as 0 after reset; R201 gives code 0 to no fault. -/
def resetFaultCode : BitVec 3 := 0#3

end Sys2Proof.Machine
end

