-- ==== Sys2Proof/Machine/State.lean ====
section
/-! DEFINITION. The state of CORE (spec/10_state.md R20, R36), the host's instruction store (R33, spec/70_reset_and_hazards.md
R237), the reasons a step can stop, and the state after reset (R40). -/

namespace Sys2Proof.Machine

/-- R200: the five fatal faults, each with the offending values R201 has it report. A fatal fault is not the end of the
model's run: it is entered, and latched in State (R208). -/
inductive FatalFault where
  /-- R202: raised by a word with opcode 15; the opcode value. -/
  | invalidOpcode (opcode : BitVec 4)
  /-- R203: raised by LD and PUT with width selector 3; the selector. -/
  | invalidWidthSelector (ws : BitVec 2)
  /-- R204: raised by DIV and MOD with operand B = 0; the opcode. -/
  | divideByZero (opcode : BitVec 4)
  /-- R205: raised by JMP, LD and PUT in register-offset mode with an offset field of 8 or more; the field. -/
  | regIndexOutOfRange (index : Nat)
  /-- R206: raised by LD and PUT whose access is not admitted; the unreduced effective address and the byte count. -/
  | memOutOfBounds (ea n : Nat)
deriving DecidableEq, Repr

/-- R36, R201: what `fault_info` holds: 0, or the fault's own record together with the whole instruction word. -/
inductive FaultInfo where
  | zero
  | report (cause : FatalFault) (word : Word)
deriving DecidableEq, Repr

/-- The host's instruction store `IMEM` (R237), a partial function from PC values to words: an unlisted address is
undefined. -/
abbrev InstrStore := List (Nat × Word)

/-- The canonical form: addresses rising, each a PC value. -/
abbrev InstrStore.wf (m : InstrStore) : Prop := CellsRising m ∧ ∀ c ∈ m, c.1 < 2 ^ 32

/-- Everything the spec gives the machine. -/
structure State where
  /-- R21: the register file `x[0..7]`. -/
  regs      : Vector Word 8
  /-- R26: the program counter. -/
  pc        : Word
  /-- R31: the data memory. -/
  mem       : Memory
  /-- R36: the fault latch, `halted`. -/
  halted    : Bool
  /-- R36, R201: the fault latch, `fault_code`. -/
  faultCode : BitVec 3
  /-- R36, R201: the fault latch, `fault_info`. -/
  faultInfo : FaultInfo
  /-- R28: the output `pc_we` of the instruction presented last (log entry 3). -/
  pcWe      : Bool
  /-- R33, R237: the host's instruction store. -/
  imem      : InstrStore
  /-- R7: the machine's parameters, which nothing changes (log entry 1). -/
  params    : Params
deriving DecidableEq, Repr

/-- Why `step` has no next state. R239 lists both as "no step". No instruction's meaning answers with either. -/
inductive Fault where
  /-- R209, R239, R240: `halted = 1`, a failed run. Raised by `step` alone. Safe: the spec gives no step. -/
  | halted
  /-- R237, R239, R240: `IMEM(pc)` is undefined, a finished run. Raised by `step` alone. Safe: the spec gives no step. -/
  | endOfRun
deriving DecidableEq, Repr

/-- What the model declines to give a meaning to. -/
inductive Refusal where
  /-- An instruction with no meaning yet. Raised by `exec` alone, and by no arm of it. Safe. -/
  | notModelled (mnemonic : String)
  /-- The host presents `exec` and `advance` together without `rst`: R38 lists both inputs and no rule orders them (log
  entry 9). Raised by `respond` alone. Safe. -/
  | execWithAdvance
deriving DecidableEq, Repr

/-- R40, R231: the machine right after reset. The instruction store is the host's and holds nothing yet (log entry 5). -/
def State.reset : State where
  regs      := Vector.replicate 8 resetRegister
  pc        := resetPc
  mem       := []
  halted    := false
  faultCode := resetFaultCode
  faultInfo := .zero
  pcWe      := false
  imem      := []
  params    := referenceParams

end Sys2Proof.Machine
end

