-- ==== Sys2Proof/Machine/Ops.lean ====
section
/-! DEFINITION. The operations every instruction is written over: the register file, the PC, the outcome of one instruction
(spec/00_scope.md R10), the entry of a fatal fault and the way out of it (spec/60_exceptions.md R201, R207 to R210), and the
host's part of a step (spec/70_reset_and_hazards.md R236 to R239). -/

namespace Sys2Proof.Machine

/-- R22: `x[r]`, the read side of the register file. -/
def State.reg (s : State) (r : RegIx) : Word := s.regs[r.toNat]

/-- R23: `x[r] <- v`; every write replaces all 32 bits, and no register is hardwired (R21). -/
def State.writeReg (s : State) (r : RegIx) (v : Word) : State := { s with regs := s.regs.set r.toNat v }

/-- R9, R29: `pc <- t`; any 32-bit value is legal. -/
def State.writePc (s : State) (t : Word) : State := { s with pc := t }

/-- R54: `MemWrite(ea, n, v)`. -/
def State.store (s : State) (ea n : Nat) (v : Word) : State := { s with mem := s.mem.write ea n v }

/-- R28: the output `pc_we` of an instruction. -/
def State.withPcWe (s : State) (f : Bool) : State := { s with pcWe := f }

/-- R201: the code of a fatal fault. -/
def FatalFault.code : FatalFault → BitVec 3
  | .invalidOpcode _ => 1#3
  | .invalidWidthSelector _ => 2#3
  | .divideByZero _ => 3#3
  | .regIndexOutOfRange _ => 4#3
  | .memOutOfBounds _ _ => 5#3

/-- R208: fault entry. The latch records the fault and the whole word; `x`, `pc` and `Mem` are left as they were, control
goes nowhere, and `pc_we = 0`. -/
def State.enterFault (s : State) (f : FatalFault) (w : Word) : State :=
  { s with halted := true, faultCode := f.code, faultInfo := .report f w, pcWe := false }

/-- R210, R231: there is no return from a fault but reset, which sets all of CORE's state to R40's values at once. The
instruction store and the parameters are the host's and stay (R237; log entry 5). -/
def State.applyReset (s : State) : State := { State.reset with imem := s.imem, params := s.params }

/-- R10: the two outcomes of an instruction: it completes, with the output `pc_we`, or it raises a fatal fault. -/
inductive InstrResult where
  | completed (next : State) (pcWe : Bool)
  | fatal (f : FatalFault)
deriving DecidableEq, Repr

/-- R207 to R209, R239: what presenting an instruction does to CORE, given the instruction's word and its result: while
halted, nothing (`pc_we` stays 0); otherwise its writes, or the entry of its fault. -/
def conclude (w : Word) (r : InstrResult) (s : State) : Host.Outcome State Fault Refusal :=
  if s.halted then .next (s.withPcWe false)
  else
    match r with
    | .completed t p => .next (t.withPcWe p)
    | .fatal f => .next (s.enterFault f w)

/-- R237: the host reads `pc` and fetches `IMEM(pc)`. -/
def State.fetchWord (s : State) : Option Word := cellLookup s.imem s.pc.toNat

/-- R237: the host's store with a word at the PC. -/
def State.placeAtPc (s : State) (w : Word) : State := { s with imem := cellPut s.imem s.pc.toNat w }

/-- R238, R209: the `advance` input, `pc <- (pc + PC_STEP) mod 2^32`, ignored while halted. -/
def State.advance (s : State) : State :=
  if s.halted then s else { s with pc := s.pc + s.params.pcStep }

/-- R238, R243: the host advances the PC after every completed instruction that did not write it, and only then. -/
def State.sequence (s : State) : State := if s.pcWe then s else s.advance

/-- R239: the host's part of a step, after CORE's. -/
def hostSequence : Host.Outcome State Fault Refusal → Host.Outcome State Fault Refusal
  | .next t => .next t.sequence
  | .fault r => .fault r
  | .refused r => .refused r

end Sys2Proof.Machine
end

