-- ==== Sys2Proof/Machine/Operands.lean ====
section
/-! DEFINITION. Every operand form: the offset of JMP, LD and PUT (spec/30_encoding.md R92), operand B of format A (R93), and
the access of LD and PUT: width, effective address, bounds (spec/20_memory.md R50, R51, R58; spec/41_load_store.md R131 to
R133). -/

namespace Sys2Proof.Machine

/-- R92: `RegOffset(f)`. The whole field is the index, not masked, and the register's value is used in full. -/
def regOffset (f : Nat) (s : State) : Except FatalFault Word :=
  if f ≤ 7 then .ok (s.reg (BitVec.ofNat 3 f)) else .error (.regIndexOutOfRange f)

/-- R91, R92: the offset: the zero-extended field when the use-immediate flag is set, else the register it names. -/
def resolveOffset {n : Nat} (i : Bool) (o : BitVec n) (s : State) : Except FatalFault Word :=
  if i then .ok (o.setWidth 32) else regOffset o.toNat s

/-- R93: operand B of format A: the zero-extended immediate when the flag is set, else `x[rb]`. -/
def operandB (rb : RegIx) (i : Bool) (imm : BitVec 18) (s : State) : Word :=
  if i then imm.setWidth 32 else s.reg rb

/-- R58: the byte count `2^ws`; selector 3 is invalid. -/
def accessWidth (ws : BitVec 2) : Except FatalFault Nat :=
  if ws = 3#2 then .error (.invalidWidthSelector ws) else .ok (2 ^ ws.toNat)

/-- R132: the base of LD and PUT: the number in the field, or under `LDPUT_BASE = register` the register's value. -/
def accessBase (bf : RegIx) (s : State) : Nat :=
  match s.params.ldPutBase with
  | .field => bf.toNat
  | .register => (s.reg bf).toNat

/-- R50: an access: an effective address, not reduced modulo 2^32, and a byte count. -/
structure Access where
  ea : Nat
  n  : Nat
deriving DecidableEq, Repr

/-- R51: an access is admitted exactly when it ends inside the memory. -/
def checkBounds (a : Access) : Except FatalFault Access :=
  if a.ea + a.n ≤ memSize then .ok a else .error (.memOutOfBounds a.ea a.n)

/-- R131: the order of evaluation of LD and PUT: width selector, offset, effective address (R133), bounds. -/
def resolveAccess (ws : BitVec 2) (i : Bool) (bf : RegIx) (o : BitVec 19) (s : State) : Except FatalFault Access :=
  match accessWidth ws with
  | .error f => .error f
  | .ok n =>
    match resolveOffset i o s with
    | .error f => .error f
    | .ok off => checkBounds ⟨accessBase bf s + off.toNat, n⟩

end Sys2Proof.Machine
end

