-- ==== Sys2Proof/Machine/Arithmetic.lean ====
section
/-! DEFINITION. The arithmetic family: ADD, SUB, MUL, DIV, MOD (spec/43_arithmetic.md R160 to R168). -/

namespace Sys2Proof.Machine

/-- R160: the operand fetch and write-back of format A, by the operator: `x[rd] <- A <op> B`. -/
def formatAResult (f : Word → Word → Word) (rd ra rb : RegIx) (i : Bool) (imm : BitVec 18) (s : State) : InstrResult :=
  .completed (s.writeReg rd (f (s.reg ra) (operandB rb i imm s))) false

/-- R166, R167: a zero operand B raises DivideByZero with the opcode, before anything is written. -/
def divisionResult (op : BitVec 4) (f : Word → Word → Word) (rd ra rb : RegIx) (i : Bool) (imm : BitVec 18) (s : State) :
    InstrResult :=
  if operandB rb i imm s = 0#32 then .fatal (.divideByZero op) else formatAResult f rd ra rb i imm s

/-- R163: ADD, modulo 2^32 (R161). -/
def execAdd (rd ra rb : RegIx) (i : Bool) (imm : BitVec 18) (s : State) : Host.Outcome State Fault Refusal :=
  conclude (encode (.add rd ra rb i imm)) (formatAResult (fun a b => a + b) rd ra rb i imm s) s

/-- R164: SUB, modulo 2^32. -/
def execSub (rd ra rb : RegIx) (i : Bool) (imm : BitVec 18) (s : State) : Host.Outcome State Fault Refusal :=
  conclude (encode (.sub rd ra rb i imm)) (formatAResult (fun a b => a - b) rd ra rb i imm s) s

/-- R165: MUL, the low 32 bits of the product. -/
def execMul (rd ra rb : RegIx) (i : Bool) (imm : BitVec 18) (s : State) : Host.Outcome State Fault Refusal :=
  conclude (encode (.mul rd ra rb i imm)) (formatAResult (fun a b => a * b) rd ra rb i imm s) s

/-- R166: DIV, the unsigned floor quotient (R162). -/
def execDiv (rd ra rb : RegIx) (i : Bool) (imm : BitVec 18) (s : State) : Host.Outcome State Fault Refusal :=
  conclude (encode (.div rd ra rb i imm)) (divisionResult 8#4 (fun a b => a.udiv b) rd ra rb i imm s) s

/-- R167: MOD, the unsigned remainder (R162). -/
def execMod (rd ra rb : RegIx) (i : Bool) (imm : BitVec 18) (s : State) : Host.Outcome State Fault Refusal :=
  conclude (encode (.mod rd ra rb i imm)) (divisionResult 9#4 (fun a b => a.umod b) rd ra rb i imm s) s

end Sys2Proof.Machine
end

