-- ==== Sys2Proof/Machine/Bitwise.lean ====
section
/-! DEFINITION. The bitwise family: AND, OR, XOR (spec/44_bitwise.md R180 to R183), over the operand fetch of R160. -/

namespace Sys2Proof.Machine

/-- R181: AND. -/
def execAnd (rd ra rb : RegIx) (i : Bool) (imm : BitVec 18) (s : State) : Host.Outcome State Fault Refusal :=
  conclude (encode (.and rd ra rb i imm)) (formatAResult (fun a b => a &&& b) rd ra rb i imm s) s

/-- R182: OR. -/
def execOr (rd ra rb : RegIx) (i : Bool) (imm : BitVec 18) (s : State) : Host.Outcome State Fault Refusal :=
  conclude (encode (.or rd ra rb i imm)) (formatAResult (fun a b => a ||| b) rd ra rb i imm s) s

/-- R183: XOR. -/
def execXor (rd ra rb : RegIx) (i : Bool) (imm : BitVec 18) (s : State) : Host.Outcome State Fault Refusal :=
  conclude (encode (.xor rd ra rb i imm)) (formatAResult (fun a b => a ^^^ b) rd ra rb i imm s) s

end Sys2Proof.Machine
end

