-- ==== Sys2Proof/Machine/Flags.lean ====
section
/-! DEFINITION. The ISA has no status flags, condition codes or predicates, and no instruction computes one (spec/10_state.md
R34). Its only condition is JMP's conditional skip, which tests a whole register for zero. -/

namespace Sys2Proof.Machine

/-- R12, R121: "truthy" is non-zero, on all 32 bits, with no sign. -/
def truthy (v : Word) : Bool := decide (v ≠ 0#32)

/-- R121, R122: a JMP is skipped when its flag is set and the condition register's value has the sense of `JMP_SKIP_ON`. -/
def jumpSkipped (c : Bool) (cr : RegIx) (s : State) : Bool :=
  c && match s.params.jmpSkipOn with
    | .nonzero => truthy (s.reg cr)
    | .zero => !truthy (s.reg cr)

end Sys2Proof.Machine
end

