-- ==== Sys2Proof/Machine/ControlTransfer.lean ====
section
/-! DEFINITION. The control-transfer family: JMP (spec/40_jmp.md R120 to R124). -/

namespace Sys2Proof.Machine

/-- R121: JMP. The skip test comes first, so a skipped JMP never faults; the target is `(x[b] + off) mod 2^32` (R29). -/
def execJmp (i : Bool) (b : RegIx) (c : Bool) (cr : RegIx) (o : BitVec 20) (s : State) :
    Host.Outcome State Fault Refusal :=
  conclude (encode (.jmp i b c cr o))
    (if jumpSkipped c cr s then .completed s false
     else
      match resolveOffset i o s with
      | .ok off => .completed (s.writePc (s.reg b + off)) true
      | .error f => .fatal f) s

end Sys2Proof.Machine
end

