-- ==== Sys2Proof/Machine/Illegal.lean ====
section
/-! DEFINITION. The illegal opcode 15 (spec/30_encoding.md R101, spec/60_exceptions.md R202). -/

namespace Sys2Proof.Machine

/-- R101, R202: every word with opcode 15 raises InvalidOpcode, whatever its other 28 bits. -/
def execIllegal (rest : BitVec 28) (s : State) : Host.Outcome State Fault Refusal :=
  conclude (encode (.illegal rest)) (.fatal (.invalidOpcode 15#4)) s

end Sys2Proof.Machine
end

