-- ==== Sys2Proof/Machine/ImmediateLoad.lean ====
section
/-! DEFINITION. The immediate-load family: SET and SETU (spec/42_set.md R150 to R155). -/

namespace Sys2Proof.Machine

/-- R151: the top byte follows the flag, never bit 23 of the immediate. -/
def setValue (sx : Bool) (imm : BitVec 24) : Word := (if sx then 0xFF000000#32 else 0#32) ||| imm.setWidth 32

/-- R153: bits [23:0] kept, bits [30:24] replaced, bit [31] cleared. -/
def setuValue (old : Word) (imm : BitVec 7) : Word := (old &&& 0x00FFFFFF#32) ||| (imm.setWidth 32 <<< 24)

/-- R151: SET. -/
def execSet (rd : RegIx) (sx : Bool) (imm : BitVec 24) (s : State) : Host.Outcome State Fault Refusal :=
  conclude (encode (.set rd sx imm)) (.completed (s.writeReg rd (setValue sx imm)) false) s

/-- R153: SETU, a read-modify-write of its destination. -/
def execSetu (rd : RegIx) (imm : BitVec 7) (ign : BitVec 18) (s : State) : Host.Outcome State Fault Refusal :=
  conclude (encode (.setu rd imm ign)) (.completed (s.writeReg rd (setuValue (s.reg rd) imm)) false) s

end Sys2Proof.Machine
end

