-- ==== Sys2Proof/Machine/LoadStore.lean ====
section
/-! DEFINITION. The memory-access family: LD and PUT (spec/41_load_store.md R130 to R136). Any alignment is legal (R57). -/

namespace Sys2Proof.Machine

/-- R134: LD, `x[r] <- MemRead(EA, n)`, big-endian, zero-extended. -/
def execLd (ws : BitVec 2) (i : Bool) (r bf : RegIx) (o : BitVec 19) (s : State) : Host.Outcome State Fault Refusal :=
  conclude (encode (.ld ws i r bf o))
    (match resolveAccess ws i bf o s with
      | .ok a => .completed (s.writeReg r (s.mem.read a.ea a.n)) false
      | .error f => .fatal f) s

/-- R135: PUT, `MemWrite(EA, n, x[r])`, the low `8n` bits, big-endian. -/
def execPut (ws : BitVec 2) (i : Bool) (r bf : RegIx) (o : BitVec 19) (s : State) : Host.Outcome State Fault Refusal :=
  conclude (encode (.put ws i r bf o))
    (match resolveAccess ws i bf o s with
      | .ok a => .completed (s.store a.ea a.n (s.reg r)) false
      | .error f => .fatal f) s

end Sys2Proof.Machine
end

