-- ==== Sys2Proof/Machine/Shift.lean ====
section
/-! DEFINITION. The shift family: BSR and BSL (spec/45_shift.md R190 to R194), each a logical shift or a rotate by 0 .. 31. -/

namespace Sys2Proof.Machine

/-- R192: the value of BSR. The complementary shift is evaluated only for `k >= 1` (R191). -/
def shiftRightValue (v : Word) (k : BitVec 5) (rot : Bool) : Word :=
  if rot = false then v >>> k.toNat
  else if k = 0#5 then v
  else (v >>> k.toNat) ||| (v <<< (32 - k.toNat))

/-- R193: the value of BSL. -/
def shiftLeftValue (v : Word) (k : BitVec 5) (rot : Bool) : Word :=
  if rot = false then v <<< k.toNat
  else if k = 0#5 then v
  else (v <<< k.toNat) ||| (v >>> (32 - k.toNat))

/-- R192: BSR. -/
def execBsr (rd rs : RegIx) (k : BitVec 5) (rot : Bool) (ign : BitVec 16) (s : State) :
    Host.Outcome State Fault Refusal :=
  conclude (encode (.bsr rd rs k rot ign)) (.completed (s.writeReg rd (shiftRightValue (s.reg rs) k rot)) false) s

/-- R193: BSL. -/
def execBsl (rd rs : RegIx) (k : BitVec 5) (rot : Bool) (ign : BitVec 16) (s : State) :
    Host.Outcome State Fault Refusal :=
  conclude (encode (.bsl rd rs k rot ign)) (.completed (s.writeReg rd (shiftLeftValue (s.reg rs) k rot)) false) s

end Sys2Proof.Machine
end

