-- ==== Sys2Proof/Machine/Dispatch.lean ====
section
/-! DEFINITION. The opcode dispatch unit (spec/30_encoding.md R100): one meaning per instruction. -/

namespace Sys2Proof.Machine

/-- R10, R100: executing one instruction on a machine state; exactly one handler per opcode. -/
def exec (i : Instr) (s : State) : Host.Outcome State Fault Refusal :=
  match i with
  | .jmp imm b c cr o => Sys2Proof.Machine.execJmp imm b c cr o s
  | .ld ws imm r bf o => Sys2Proof.Machine.execLd ws imm r bf o s
  | .put ws imm r bf o => Sys2Proof.Machine.execPut ws imm r bf o s
  | .set rd sx imm => Sys2Proof.Machine.execSet rd sx imm s
  | .setu rd imm ign => Sys2Proof.Machine.execSetu rd imm ign s
  | .add rd ra rb f imm => Sys2Proof.Machine.execAdd rd ra rb f imm s
  | .sub rd ra rb f imm => Sys2Proof.Machine.execSub rd ra rb f imm s
  | .mul rd ra rb f imm => Sys2Proof.Machine.execMul rd ra rb f imm s
  | .div rd ra rb f imm => Sys2Proof.Machine.execDiv rd ra rb f imm s
  | .mod rd ra rb f imm => Sys2Proof.Machine.execMod rd ra rb f imm s
  | .and rd ra rb f imm => Sys2Proof.Machine.execAnd rd ra rb f imm s
  | .or rd ra rb f imm => Sys2Proof.Machine.execOr rd ra rb f imm s
  | .xor rd ra rb f imm => Sys2Proof.Machine.execXor rd ra rb f imm s
  | .bsr rd rs k rot ign => Sys2Proof.Machine.execBsr rd rs k rot ign s
  | .bsl rd rs k rot ign => Sys2Proof.Machine.execBsl rd rs k rot ign s
  | .illegal rest => Sys2Proof.Machine.execIllegal rest s

end Sys2Proof.Machine
end

