-- ==== Sys2Proof/Machine/Step.lean ====
section
/-! DEFINITION. One step of the whole machine, host and CORE (spec/70_reset_and_hazards.md R239). -/

namespace Sys2Proof.Machine

/-- R239: `Step(state)`. No step while halted (a failed run) or where `IMEM(pc)` is undefined (the end of the run);
otherwise fetch, execute, and advance unless the instruction wrote the PC or faulted. -/
def step (s : State) : Host.Outcome State Fault Refusal :=
  if s.halted then .fault .halted
  else
    match s.fetchWord with
    | none => .fault .endOfRun
    | some w => hostSequence (exec (decode w) s)

/-- The state with the word of a table row stored where the next step fetches: in the host's instruction store, at the PC
(R237). -/
def State.withFetchWord (s : State) (nbits w : Nat) : State := s.placeAtPc (tableWord nbits w)

end Sys2Proof.Machine
end

