-- ==== Sys2Proof/Machine/Assembly.lean ====
section
/-! DEFINITION. The assembly notation of spec/30_encoding.md R110, one constructor per row of its syntax table (rows that differ
in one operand form share one), and the instruction each form stands for. A form has no text of its own here: R110 fixes no
radix for a number. -/

namespace Sys2Proof.Machine

/-- R110: `#imm` or `ro`, the offset of JMP, LD and PUT. -/
inductive AsmOffset (n : Nat) where
  | imm (v : BitVec n)
  | reg (r : RegIx)
deriving DecidableEq, Repr

/-- R110: `.b`, `.h`, `.w`: 1, 2 and 4 bytes. -/
inductive AsmWidth where
  | b
  | h
  | w
deriving DecidableEq, Repr

/-- R110: the eight mnemonics of format A. -/
inductive AsmOp where
  | add
  | sub
  | mul
  | div
  | mod
  | and
  | or
  | xor
deriving DecidableEq, Repr

/-- R110: `rb` or `#imm18`, the last operand of format A. -/
inductive AsmSource where
  | reg (r : RegIx)
  | imm (v : BitVec 18)
deriving DecidableEq, Repr

/-- R110: one line of assembly. There are no pseudo-instructions. -/
inductive Asm where
  | jmp (rb : RegIx) (off : AsmOffset 20) (skip : Option RegIx)
  | ld (width : AsmWidth) (rd : RegIx) (base : BitVec 3) (off : AsmOffset 19)
  | put (width : AsmWidth) (rs : RegIx) (base : BitVec 3) (off : AsmOffset 19)
  | set (rd : RegIx) (imm : BitVec 24) (s : Bool)
  | setu (rd : RegIx) (imm : BitVec 7)
  | formatA (op : AsmOp) (rd ra : RegIx) (src : AsmSource)
  | bsr (rd rs : RegIx) (k : BitVec 5) (rot : Bool)
  | bsl (rd rs : RegIx) (k : BitVec 5) (rot : Bool)
  /-- `.word 0x...`, a raw word. -/
  | word (w : Word)
deriving DecidableEq, Repr

/-- The use-immediate flag of an offset. -/
def AsmOffset.flag {n : Nat} : AsmOffset n → Bool
  | .imm _ => true
  | .reg _ => false

/-- The offset field: the immediate, or the index of the register. -/
def AsmOffset.value {n : Nat} : AsmOffset n → BitVec n
  | .imm v => v
  | .reg r => r.setWidth n

/-- The width selector of a suffix. -/
def AsmWidth.selector : AsmWidth → BitVec 2
  | .b => 0#2
  | .h => 1#2
  | .w => 2#2

/-- The instruction of a mnemonic of format A. -/
def AsmOp.instr : AsmOp → RegIx → RegIx → RegIx → Bool → BitVec 18 → Instr
  | .add => .add
  | .sub => .sub
  | .mul => .mul
  | .div => .div
  | .mod => .mod
  | .and => .and
  | .or => .or
  | .xor => .xor

/-- R110: the instruction a line stands for; a field the instruction ignores is 0. -/
def Asm.assemble : Asm → Instr
  | .jmp rb off none => .jmp off.flag rb false 0#3 off.value
  | .jmp rb off (some rc) => .jmp off.flag rb true rc off.value
  | .ld width rd base off => .ld width.selector off.flag rd base off.value
  | .put width rs base off => .put width.selector off.flag rs base off.value
  | .set rd imm s => .set rd s imm
  | .setu rd imm => .setu rd imm 0#18
  | .formatA op rd ra (.reg rb) => op.instr rd ra rb false 0#18
  | .formatA op rd ra (.imm v) => op.instr rd ra 0#3 true v
  | .bsr rd rs k rot => .bsr rd rs k rot 0#16
  | .bsl rd rs k rot => .bsl rd rs k rot 0#16
  | .word w => decode w

end Sys2Proof.Machine
end

