-- ==== Sys2Proof/Machine/Boundary.lean ====
section
/-! DEFINITION. CORE's block boundary (spec/10_state.md R38): what the host can present to it and see of it, reset
(spec/70_reset_and_hazards.md R231) and the launch image (R233). `step` is one reference host driving this boundary. -/

namespace Sys2Proof.Machine

/-- R38: the inputs presented together; `exec` carries the instruction word `iw`. -/
structure HostRequest where
  rst     : Bool
  exec    : Option Word
  advance : Bool
deriving DecidableEq, Repr

/-- R38: the outputs. -/
structure Outputs where
  pc        : Word
  pcWe      : Bool
  halted    : Bool
  faultCode : BitVec 3
  faultInfo : FaultInfo
deriving DecidableEq, Repr

/-- R38: what the host sees of a state. -/
def State.outputs (s : State) : Outputs := ⟨s.pc, s.pcWe, s.halted, s.faultCode, s.faultInfo⟩

/-- R38, R209, R231, R238: CORE's answer to its inputs. Reset takes priority over the others presented with it, and a halted
CORE ignores the others; no rule orders `exec` and `advance` presented together to a running one. -/
def respond (q : HostRequest) (s : State) : Host.Outcome State Fault Refusal :=
  if q.rst then .next s.applyReset
  else
    match q.exec, q.advance with
    | none, false => .next s
    | none, true => .next s.advance
    | some w, false => Sys2Proof.Machine.exec (decode w) s
    | some _, true => if s.halted then .next (s.withPcWe false) else .refused .execWithAdvance

/-- R233: the values the host may write into the machine between reset and the first instruction. -/
structure LaunchImage where
  regs : Vector Word 8
  pc   : Word
  mem  : Memory
deriving DecidableEq, Repr

/-- R233: the launch state: any values in `x`, `pc` and `Mem`. -/
def State.launch (s : State) (im : LaunchImage) : State := { s with regs := im.regs, pc := im.pc, mem := im.mem }

end Sys2Proof.Machine
end

