-- ==== Sys2Proof/Safety.lean ====
section
/-! DEFINITION. The terms claims are made in: how a run ends (spec/70_reset_and_hazards.md R240), the invariant of the model,
the tables of spec/10_state.md R22 and R23 and spec/60_exceptions.md R217, and what an instruction leaves unchanged. -/

namespace Sys2Proof.Machine

/-! ### Ends of a run and the invariant -/

/-- R240: a finished run. -/
def State.finished (s : State) : Prop := s.halted = false ∧ s.fetchWord = none

/-- R240: a failed run. -/
def State.failed (s : State) : Prop := s.halted = true

/-- R201's table read backwards: the word a fault is latched with is one that can raise it, with these offending values. -/
def FatalFault.agreesWith : FatalFault → Word → Prop
  | .invalidOpcode op, w => op = 15#4 ∧ fld w 1 4 = 15#4
  | .invalidWidthSelector ws, w => ws = 3#2 ∧ fld w 5 2 = 3#2 ∧ (fld w 1 4 = 1#4 ∨ fld w 1 4 = 2#4)
  | .divideByZero op, w => fld w 1 4 = op ∧ (op = 8#4 ∨ op = 9#4)
  | .regIndexOutOfRange o, w => 8 ≤ o ∧
      ((fld w 1 4 = 0#4 ∧ flag w 5 = false ∧ (fld w 13 20).toNat = o) ∨
       ((fld w 1 4 = 1#4 ∨ fld w 1 4 = 2#4) ∧ flag w 7 = false ∧ (fld w 14 19).toNat = o))
  | .memOutOfBounds ea n, w => memSize < ea + n ∧ n = 2 ^ (fld w 5 2).toNat ∧ fld w 5 2 ≠ 3#2 ∧
      (fld w 1 4 = 1#4 ∨ fld w 1 4 = 2#4)

/-- The invariant of the model: data memory and instruction store in their canonical forms (R31, R237), a positive
`PC_STEP` (R7), and a fault latch that is clear while CORE runs (R40) and holds one of R201's records once it has
halted, with `pc_we = 0` (R207, R209). -/
structure State.Inv (s : State) : Prop where
  memory     : s.mem.wf
  store      : s.imem.wf
  pcStep     : s.params.pcStep ≠ 0#32
  latchClear : s.halted = false → s.faultCode = 0#3 ∧ s.faultInfo = .zero
  latchHolds : s.halted = true → s.pcWe = false ∧
    ∃ f w, s.faultInfo = .report f w ∧ s.faultCode = f.code ∧ f.agreesWith w

/-- R121, R122: the condition under which a JMP is skipped. -/
def skipHolds (c : Bool) (cr : RegIx) (s : State) : Prop :=
  c = true ∧ ((s.params.jmpSkipOn = .nonzero ∧ s.reg cr ≠ 0#32) ∨ (s.params.jmpSkipOn = .zero ∧ s.reg cr = 0#32))

end Sys2Proof.Machine

/-! ### The spec's tables -/

namespace Sys2Proof

open Sys2Proof.Machine

/-- R23: the register an instruction writes when it completes. -/
def Instr.dest : Instr → Option RegIx
  | .jmp _ _ _ _ _ => none
  | .ld _ _ r _ _ => some r
  | .put _ _ _ _ _ => none
  | .set rd _ _ => some rd
  | .setu rd _ _ => some rd
  | .add rd _ _ _ _ => some rd
  | .sub rd _ _ _ _ => some rd
  | .mul rd _ _ _ _ => some rd
  | .div rd _ _ _ _ => some rd
  | .mod rd _ _ _ _ => some rd
  | .and rd _ _ _ _ => some rd
  | .or rd _ _ _ _ => some rd
  | .xor rd _ _ _ _ => some rd
  | .bsr rd _ _ _ _ => some rd
  | .bsl rd _ _ _ _ => some rd
  | .illegal _ => none

/-- R22: the registers an instruction reads. `x[bf]` is among those of LD and PUT only under `LDPUT_BASE = register`
(R132). -/
def Instr.readsReg (i : Instr) (s : State) (q : RegIx) : Prop :=
  match i with
  | .jmp f b c cr o => (c = true ∧ q = cr) ∨ (¬ skipHolds c cr s ∧ (q = b ∨ (f = false ∧ q.toNat = o.toNat)))
  | .ld _ f _ bf o => (f = false ∧ q.toNat = o.toNat) ∨ (s.params.ldPutBase = .register ∧ q = bf)
  | .put _ f r bf o => q = r ∨ (f = false ∧ q.toNat = o.toNat) ∨ (s.params.ldPutBase = .register ∧ q = bf)
  | .set _ _ _ => False
  | .setu rd _ _ => q = rd
  | .add _ ra rb f _ => q = ra ∨ (f = false ∧ q = rb)
  | .sub _ ra rb f _ => q = ra ∨ (f = false ∧ q = rb)
  | .mul _ ra rb f _ => q = ra ∨ (f = false ∧ q = rb)
  | .div _ ra rb f _ => q = ra ∨ (f = false ∧ q = rb)
  | .mod _ ra rb f _ => q = ra ∨ (f = false ∧ q = rb)
  | .and _ ra rb f _ => q = ra ∨ (f = false ∧ q = rb)
  | .or _ ra rb f _ => q = ra ∨ (f = false ∧ q = rb)
  | .xor _ ra rb f _ => q = ra ∨ (f = false ∧ q = rb)
  | .bsr _ rs _ _ _ => q = rs
  | .bsl _ rs _ _ _ => q = rs
  | .illegal _ => False

/-- R217: the fatal faults an instruction can raise. -/
def Instr.canRaise : Instr → FatalFault → Prop
  | .jmp _ _ _ _ _, f => ∃ o, f = .regIndexOutOfRange o
  | .ld _ _ _ _ _, f =>
      (∃ ws, f = .invalidWidthSelector ws) ∨ (∃ o, f = .regIndexOutOfRange o) ∨ (∃ ea n, f = .memOutOfBounds ea n)
  | .put _ _ _ _ _, f =>
      (∃ ws, f = .invalidWidthSelector ws) ∨ (∃ o, f = .regIndexOutOfRange o) ∨ (∃ ea n, f = .memOutOfBounds ea n)
  | .set _ _ _, _ => False
  | .setu _ _ _, _ => False
  | .add _ _ _ _ _, _ => False
  | .sub _ _ _ _ _, _ => False
  | .mul _ _ _ _ _, _ => False
  | .div _ _ _ _ _, f => f = .divideByZero 8#4
  | .mod _ _ _ _ _, f => f = .divideByZero 9#4
  | .and _ _ _ _ _, _ => False
  | .or _ _ _ _ _, _ => False
  | .xor _ _ _ _ _, _ => False
  | .bsr _ _ _ _ _, _ => False
  | .bsl _ _ _ _ _, _ => False
  | .illegal _, f => f = .invalidOpcode 15#4

/-- R103 (d), (e): the ignored field of format A set to 0. -/
def formatAWithoutIgnored (mk : RegIx → RegIx → RegIx → Bool → BitVec 18 → Instr) (rd ra rb : RegIx) (f : Bool)
    (imm : BitVec 18) : Instr :=
  if f then mk rd ra 0#3 true imm else mk rd ra rb false 0#18

/-- R103: an instruction with its ignored bits set to 0; two words differ only in ignored bits when these agree. -/
def Instr.withoutIgnored : Instr → Instr
  | .jmp f b c cr o => .jmp f b c (if c then cr else 0#3) o
  | .ld ws f r bf o => .ld ws f r bf o
  | .put ws f r bf o => .put ws f r bf o
  | .set rd sx imm => .set rd sx imm
  | .setu rd imm _ => .setu rd imm 0#18
  | .add rd ra rb f imm => formatAWithoutIgnored .add rd ra rb f imm
  | .sub rd ra rb f imm => formatAWithoutIgnored .sub rd ra rb f imm
  | .mul rd ra rb f imm => formatAWithoutIgnored .mul rd ra rb f imm
  | .div rd ra rb f imm => formatAWithoutIgnored .div rd ra rb f imm
  | .mod rd ra rb f imm => formatAWithoutIgnored .mod rd ra rb f imm
  | .and rd ra rb f imm => formatAWithoutIgnored .and rd ra rb f imm
  | .or rd ra rb f imm => formatAWithoutIgnored .or rd ra rb f imm
  | .xor rd ra rb f imm => formatAWithoutIgnored .xor rd ra rb f imm
  | .bsr rd rs k rot _ => .bsr rd rs k rot 0#16
  | .bsl rd rs k rot _ => .bsl rd rs k rot 0#16
  | .illegal rest => .illegal rest

end Sys2Proof

namespace Sys2Proof.Machine

/-- A state but for the whole word its fault record holds. -/
def State.forgetWord (s : State) : State :=
  { s with faultInfo := match s.faultInfo with
      | .zero => .zero
      | .report f _ => .report f 0#32 }

/-! ### Frames: what an instruction leaves unchanged -/

/-- The host's store and the parameters are unchanged. -/
structure SameHost (s t : State) : Prop where
  imem   : t.imem = s.imem
  params : t.params = s.params

/-- The fault latch is unchanged. -/
structure SameLatch (s t : State) : Prop where
  halted    : t.halted = s.halted
  faultCode : t.faultCode = s.faultCode
  faultInfo : t.faultInfo = s.faultInfo

/-- Every register reads as before. -/
def SameRegs (s t : State) : Prop := ∀ q, t.reg q = s.reg q

/-- Every byte of memory reads as before. -/
def SameMemory (s t : State) : Prop := ∀ a, t.mem.readByte a = s.mem.readByte a

/-- The frame of an instruction that writes one register: R23, R27, R32, R36. -/
structure WritesOnlyReg (rd : RegIx) (s t : State) : Prop where
  regs   : ∀ q, q ≠ rd → t.reg q = s.reg q
  pc     : t.pc = s.pc
  pcWe   : t.pcWe = false
  memory : SameMemory s t
  latch  : SameLatch s t
  host   : SameHost s t

/-- The frame of a taken JMP, which writes only the PC. -/
structure WritesOnlyPc (s t : State) : Prop where
  regs   : SameRegs s t
  pcWe   : t.pcWe = true
  memory : SameMemory s t
  latch  : SameLatch s t
  host   : SameHost s t

/-- The frame of a store of `n` bytes at `ea`. -/
structure WritesOnlyBytes (ea n : Nat) (s t : State) : Prop where
  regs   : SameRegs s t
  pc     : t.pc = s.pc
  pcWe   : t.pcWe = false
  memory : ∀ a, a < ea ∨ ea + n ≤ a → t.mem.readByte a = s.mem.readByte a
  latch  : SameLatch s t
  host   : SameHost s t

/-- The frame of an instruction that changes nothing. -/
structure ChangesNothing (s t : State) : Prop where
  regs   : SameRegs s t
  pc     : t.pc = s.pc
  pcWe   : t.pcWe = false
  memory : SameMemory s t
  latch  : SameLatch s t
  host   : SameHost s t

/-- R201, R207, R208: the entry of a fatal fault with its code and its record; nothing but the latch changes. -/
structure EntersFault (f : FatalFault) (code : BitVec 3) (w : Word) (s t : State) : Prop where
  halted    : t.halted = true
  faultCode : t.faultCode = code
  faultInfo : t.faultInfo = .report f w
  regs      : SameRegs s t
  pc        : t.pc = s.pc
  pcWe      : t.pcWe = false
  memory    : SameMemory s t
  host      : SameHost s t

end Sys2Proof.Machine
end

