-- ==== Sys2Proof/Certificates/Slice0/Obligations.lean ====
section
/-! DEFINITION. The statements for the provers. Each docstring names the rules of spec/ it formalises. Results are stated in
the spec's own arithmetic on natural numbers, not in the operators the meanings use. -/

open Sys2Proof Sys2Proof.Machine

namespace Sys2Proof.Spec

/-- R93: the value of operand B of format A. -/
def operandBValue (rb : RegIx) (f : Bool) (imm : BitVec 18) (s : State) : Nat := if f then imm.toNat else (s.reg rb).toNat

/-- R93: bit `j` of operand B of format A. -/
def operandBBit (rb : RegIx) (f : Bool) (imm : BitVec 18) (s : State) (j : Nat) : Bool :=
  if f then imm.getLsbD j else (s.reg rb).getLsbD j

/-- R92: the offset is an immediate, or its field names a register. -/
def OffsetNamed {n : Nat} (f : Bool) (o : BitVec n) : Prop := f = true ∨ o.toNat ≤ 7

/-- R91, R92: the value of the offset. -/
def offsetValue {n : Nat} (f : Bool) (o : BitVec n) (s : State) : Nat :=
  if f then o.toNat else (s.reg (BitVec.ofNat 3 o.toNat)).toNat

/-- R132, R133: the effective address of LD and PUT, a natural number. -/
def effectiveAddress (f : Bool) (bf : RegIx) (o : BitVec 19) (s : State) : Nat :=
  (match s.params.ldPutBase with
    | .field => bf.toNat
    | .register => (s.reg bf).toNat) + offsetValue f o s

/-- R58: the byte count of a width selector. -/
def byteCount (ws : BitVec 2) : Nat := 2 ^ ws.toNat

/-- R31: the value of the byte at an address. -/
def byteAt (m : Memory) (a : Nat) : Nat := (m.readByte a).toNat

/-- R53: the value of the one, two or four bytes at an address, big-endian. -/
def bigEndian (m : Memory) (ea : Nat) (ws : BitVec 2) : Nat :=
  if ws = 0#2 then byteAt m ea
  else if ws = 1#2 then byteAt m ea * 2 ^ 8 + byteAt m (ea + 1)
  else byteAt m ea * 2 ^ 24 + byteAt m (ea + 1) * 2 ^ 16 + byteAt m (ea + 2) * 2 ^ 8 + byteAt m (ea + 3)

/-- R111: the word of format A as a sum of its fields. -/
def formatAWord (op : Nat) (rd ra rb : RegIx) (f : Bool) (imm : BitVec 18) : Nat :=
  op + rd.toNat * 2 ^ 4 + ra.toNat * 2 ^ 7 + rb.toNat * 2 ^ 10 + f.toNat * 2 ^ 13 + imm.toNat * 2 ^ 14

/-- R111: the word of format H as a sum of its fields, with the ignored bits of R90. -/
def formatHWord (op : Nat) (rd rs : RegIx) (k : BitVec 5) (rot : Bool) (ign : BitVec 16) : Nat :=
  op + rd.toNat * 2 ^ 4 + rs.toNat * 2 ^ 7 + k.toNat * 2 ^ 10 + rot.toNat * 2 ^ 15 + ign.toNat * 2 ^ 16

end Sys2Proof.Spec

open Sys2Proof.Spec

/-! ### Encoding -/

/-- R85 to R90, R100: words written out from the spec's encodings, one or more of every format. -/
def Obligations.DecodeReadsTheWrittenOutWords : Prop :=
  decode 0x00005730#32 = .jmp true 1 true 3 5 ∧
  decode 0x000040A1#32 = .ld 2 false 1 0 2 ∧
  decode 0x00007D12#32 = .put 1 false 2 7 3 ∧
  decode 0x123456A3#32 = .set 2 true 0x123456 ∧
  decode 0xFFFFEAA4#32 = .setu 2 0x55 0x3FFFF ∧
  decode 0xFFFFE0B6#32 = .sub 3 1 0 true 0x3FFFF ∧
  decode 0x0001E0B9#32 = .mod 3 1 0 true 7 ∧
  decode 0x000008BC#32 = .xor 3 1 2 false 0 ∧
  decode 0xFFFF10BD#32 = .bsr 3 1 4 false 0xFFFF ∧
  decode 0x000090BE#32 = .bsl 3 1 4 true 0 ∧
  decode 0x1234567F#32 = .illegal 0x1234567

/-- R111 is the inverse of R85 to R90: no bit of an instruction is lost in its word. -/
def Obligations.DecodeUndoesEncode : Prop := ∀ i : Instr, decode (encode i) = i

/-- R104, R105: every word is an instruction or an illegal word of the table, and decoding loses none of its bits, the
ignored ones of R103 among them. -/
def Obligations.EncodeUndoesDecode : Prop := ∀ w : Word, encode (decode w) = w

/-- R84 to R90, R100: every field of every format is the unsigned value of the word's bits at its place. -/
def Obligations.DecodeReadsEveryFieldAtItsPlace : Prop :=
  ∀ w : Word,
    (w.toNat % 16 = 0 → ∃ f b c cr o, decode w = .jmp f b c cr o ∧ f.toNat = w.toNat / 2 ^ 4 % 2 ∧
      b.toNat = w.toNat / 2 ^ 5 % 8 ∧ c.toNat = w.toNat / 2 ^ 8 % 2 ∧ cr.toNat = w.toNat / 2 ^ 9 % 8 ∧
      o.toNat = w.toNat / 2 ^ 12) ∧
    (∀ p ∈ [(1, Instr.ld), (2, Instr.put)], w.toNat % 16 = p.1 → ∃ ws f r bf o, decode w = p.2 ws f r bf o ∧
      ws.toNat = w.toNat / 2 ^ 4 % 4 ∧ f.toNat = w.toNat / 2 ^ 6 % 2 ∧ r.toNat = w.toNat / 2 ^ 7 % 8 ∧
      bf.toNat = w.toNat / 2 ^ 10 % 8 ∧ o.toNat = w.toNat / 2 ^ 13) ∧
    (w.toNat % 16 = 3 → ∃ rd sx imm, decode w = .set rd sx imm ∧ rd.toNat = w.toNat / 2 ^ 4 % 8 ∧
      sx.toNat = w.toNat / 2 ^ 7 % 2 ∧ imm.toNat = w.toNat / 2 ^ 8) ∧
    (w.toNat % 16 = 4 → ∃ rd imm ign, decode w = .setu rd imm ign ∧ rd.toNat = w.toNat / 2 ^ 4 % 8 ∧
      imm.toNat = w.toNat / 2 ^ 7 % 2 ^ 7 ∧ ign.toNat = w.toNat / 2 ^ 14) ∧
    (∀ p ∈ [(5, Instr.add), (6, Instr.sub), (7, Instr.mul), (8, Instr.div), (9, Instr.mod), (10, Instr.and),
        (11, Instr.or), (12, Instr.xor)],
      w.toNat % 16 = p.1 → ∃ rd ra rb f imm, decode w = p.2 rd ra rb f imm ∧ rd.toNat = w.toNat / 2 ^ 4 % 8 ∧
      ra.toNat = w.toNat / 2 ^ 7 % 8 ∧ rb.toNat = w.toNat / 2 ^ 10 % 8 ∧ f.toNat = w.toNat / 2 ^ 13 % 2 ∧
      imm.toNat = w.toNat / 2 ^ 14) ∧
    (∀ p ∈ [(13, Instr.bsr), (14, Instr.bsl)],
      w.toNat % 16 = p.1 → ∃ rd rs k rot ign, decode w = p.2 rd rs k rot ign ∧ rd.toNat = w.toNat / 2 ^ 4 % 8 ∧
      rs.toNat = w.toNat / 2 ^ 7 % 8 ∧ k.toNat = w.toNat / 2 ^ 10 % 32 ∧ rot.toNat = w.toNat / 2 ^ 15 % 2 ∧
      ign.toNat = w.toNat / 2 ^ 16) ∧
    (w.toNat % 16 = 15 → ∃ rest, decode w = .illegal rest ∧ rest.toNat = w.toNat / 2 ^ 4)

/-- R101, R102, R104: a word is legal unless its opcode is 15 or it is an LD or PUT with width selector 3, and the legal
decoder answers with the instruction of exactly the legal words. -/
def Obligations.OnlyOpcode15AndWidthSelector3AreIllegal : Prop :=
  ∀ w : Word,
    ((decode w).wf = false ↔
      w.toNat % 16 = 15 ∨ ((w.toNat % 16 = 1 ∨ w.toNat % 16 = 2) ∧ w.toNat / 2 ^ 4 % 4 = 3)) ∧
    (∀ i, decodeLegal w = .ok i ↔ decode w = i ∧ i.wf = true) ∧
    (decodeLegal w = .error (.invalidOpcode w) ↔ w.toNat % 16 = 15) ∧
    (decodeLegal w = .error (.invalidWidthSelector w) ↔
      (w.toNat % 16 = 1 ∨ w.toNat % 16 = 2) ∧ w.toNat / 2 ^ 4 % 4 = 3)

/-- R103: two instructions that differ only in ignored bits end alike; where they fault, the whole word in `fault_info`
(R201) is the one difference (log entry 2, DEDUCED). -/
def Obligations.IgnoredBitsHaveNoEffect : Prop :=
  ∀ (i j : Instr) (s : State), i.withoutIgnored = j.withoutIgnored →
    ∃ t u, exec i s = .next t ∧ exec j s = .next u ∧ t.forgetWord = u.forgetWord ∧ (t.halted = false → t = u)

/-- R110 (decision D15): the assembly notation, raw words apart, writes exactly the legal instructions whose ignored fields
are 0 and whose register offset, where they have one, names a register; and a raw word stands for the instruction it decodes
to. -/
def Obligations.AssemblyWritesTheLegalInstructionsWithIgnoredFieldsZero : Prop :=
  (∀ i : Instr,
    (∃ a : Asm, (∀ w, a ≠ .word w) ∧ a.assemble = i) ↔
      i.wf = true ∧ i.withoutIgnored = i ∧
        (∀ f b c cr o, i = .jmp f b c cr o → OffsetNamed f o) ∧
        (∀ ws f r bf o, i = .ld ws f r bf o ∨ i = .put ws f r bf o → OffsetNamed f o)) ∧
  (∀ w : Word, encode (Asm.word w).assemble = w)

/-! ### The whole machine -/

/-- R10: a running CORE completes an instruction, with `pc_we` telling whether it wrote the PC, or raises a fatal fault that
leaves registers, PC and memory as they were; there is no third outcome. -/
def Obligations.EveryInstructionCompletesOrFaults : Prop :=
  ∀ (i : Instr) (s : State), s.halted = false →
    ∃ t, exec i s = .next t ∧
      ((SameLatch s t ∧ (t.pcWe = false → t.pc = s.pc) ∧
          (t.pcWe = true ↔ ∃ f b c cr o, i = .jmp f b c cr o ∧ ¬ skipHolds c cr s)) ∨
        ∃ f, EntersFault f f.code (encode i) s t)

/-- R207: an instruction that raises a fault changes only the fault latch, and `pc_we = 0`. -/
def Obligations.FaultsChangeOnlyTheLatch : Prop :=
  ∀ (i : Instr) (s t : State), s.halted = false → exec i s = .next t → t.halted = true →
    SameRegs s t ∧ t.pc = s.pc ∧ SameMemory s t ∧ t.pcWe = false ∧ SameHost s t

/-- R217: the faults each instruction can raise, with the code and record of R201 (decision D8). -/
def Obligations.EachInstructionRaisesOnlyItsFaults : Prop :=
  ∀ (i : Instr) (s t : State), s.halted = false → exec i s = .next t → t.halted = true →
    ∃ f, i.canRaise f ∧ EntersFault f f.code (encode i) s t

/-- R23: each instruction writes at most its destination register, and only when it completes without a fault. -/
def Obligations.OnlyTheDestinationRegisterIsWritten : Prop :=
  ∀ (i : Instr) (s t : State), exec i s = .next t →
    (∀ q, i.dest ≠ some q → t.reg q = s.reg q) ∧ (t.halted = true → SameRegs s t)

/-- R22: what a register not listed for an instruction holds changes nothing the instruction does: nothing of its outcome
but that register itself, and not even that where it is the destination. The clause of `LDPUT_BASE = register` is R132's
(decision D3). -/
def Obligations.OnlyTheListedRegistersAreRead : Prop :=
  ∀ (i : Instr) (s : State) (q : RegIx) (v : Word), ¬ i.readsReg s q →
    ∃ t u, exec i s = .next t ∧ exec i (s.writeReg q v) = .next u ∧
      u.pc = t.pc ∧ u.pcWe = t.pcWe ∧ u.mem = t.mem ∧ SameLatch t u ∧ SameHost t u ∧
      (∀ p, p ≠ q → u.reg p = t.reg p) ∧
      (i.dest ≠ some q → u.reg q = v) ∧
      (i.dest = some q → t.halted = false → u.reg q = t.reg q)

/-- R27: only a JMP that is not skipped writes the PC; everything else leaves it exactly as it was. The target modulo 2^32 is
R121's (decision D7), and the skip is taken in both senses of R122 (decision D1; log entry 12). -/
def Obligations.OnlyATakenJmpWritesThePc : Prop :=
  ∀ (i : Instr) (s t : State), exec i s = .next t →
    ((∀ f b c cr o, i ≠ .jmp f b c cr o) → t.pc = s.pc) ∧
    (∀ f b c cr o, i = .jmp f b c cr o → skipHolds c cr s → t.pc = s.pc) ∧
    (∀ f b c cr o, i = .jmp f b c cr o → ¬ skipHolds c cr s → t.halted = false →
      t.pc.toNat = ((s.reg b).toNat + offsetValue f o s) % 2 ^ 32)

/-- R32: memory is written only by PUT and read only by LD; no fetch and no fault touches it; and no access has a side effect
beside its bytes and its destination register. That PUT does not read memory: with another memory in its place it does the same
and stores the same bytes, and every byte outside the access it resolves is left, whichever memory it is. -/
def Obligations.MemoryIsWrittenOnlyByPutAndReadOnlyByLd : Prop :=
  ∀ (i : Instr) (s t : State), exec i s = .next t →
    ((∀ ws f r bf o, i ≠ .put ws f r bf o) → SameMemory s t) ∧
    (t.halted = true → SameMemory s t) ∧
    (∀ m : Memory, (∀ ws f r bf o, i ≠ .ld ws f r bf o) →
      ∃ u, exec i { s with mem := m } = .next u ∧ { u with mem := t.mem } = t ∧
        ∀ ws f r bf o a, i = .put ws f r bf o → resolveAccess ws f bf o s = .ok a → t.halted = false →
          (∀ b, a.ea ≤ b → b < a.ea + a.n → u.mem.readByte b = t.mem.readByte b) ∧
          (∀ b, b < a.ea ∨ a.ea + a.n ≤ b →
            t.mem.readByte b = s.mem.readByte b ∧ u.mem.readByte b = m.readByte b)) ∧
    (∀ m : Memory, ({ s with mem := m } : State).fetchWord = s.fetchWord) ∧
    (∀ ws f r bf o, i = .ld ws f r bf o ∨ i = .put ws f r bf o →
      (∀ q, i.dest ≠ some q → t.reg q = s.reg q) ∧ t.pc = s.pc ∧ SameHost s t ∧ (t.halted = false → SameLatch s t))

/-! ### Reset, halting, the host -/

/-- R40 (decision D11): the state right after reset. -/
def Obligations.ResetStateIsAllZero : Prop :=
  (∀ q, State.reset.reg q = 0#32) ∧ State.reset.pc = 0#32 ∧ (∀ a, State.reset.mem.readByte a = 0#8) ∧
  State.reset.halted = false ∧ State.reset.faultCode = 0#3 ∧ State.reset.faultInfo = .zero

/-- R231 (decision D11): presenting `rst`, whatever is presented with it, in whatever state, gives the reset values at once;
what stays is the host's store and the parameters (log entry 5). -/
def Obligations.PresentingResetGivesTheResetValues : Prop :=
  ∀ (w : Option Word) (adv : Bool) (s : State),
    ∃ t, respond ⟨true, w, adv⟩ s = .next t ∧ (∀ q, t.reg q = 0#32) ∧ t.pc = 0#32 ∧ (∀ a, t.mem.readByte a = 0#8) ∧
      t.halted = false ∧ t.faultCode = 0#3 ∧ t.faultInfo = .zero ∧ SameHost s t

/-- R209 (decision D10): a halted CORE executes nothing: an instruction presented to it changes no state and `pc_we` is 0, an
advance is ignored, and R239 gives no step. That exec answers a next state here is log entry 8 (DEDUCED), and that the lack of a
step is a fault is log entry 7 (DEDUCED). -/
def Obligations.HaltedCoreExecutesNothing : Prop :=
  ∀ (i : Instr) (s : State), s.halted = true →
    (∃ t, exec i s = .next t ∧ ChangesNothing s t) ∧ respond ⟨false, none, true⟩ s = .next s ∧ step s = .fault .halted

/-- R210 (decision D10): nothing the host presents but reset clears the latch, changes its record, or changes the state of a
halted CORE. -/
def Obligations.OnlyResetLeavesTheHaltedState : Prop :=
  ∀ (q : HostRequest) (s : State), s.halted = true → q.rst = false →
    ∃ t, respond q s = .next t ∧ t.halted = true ∧ SameLatch s t ∧ SameRegs s t ∧ t.pc = s.pc ∧ SameMemory s t ∧
      SameHost s t

/-- R238 (decisions D7, D12): an advance adds `PC_STEP` modulo 2^32 and changes nothing else. Two clauses are the model's own:
that `pc_we` keeps its value over an advance (log entry 3, DESIGN CHOICE), and that a state with `pc_we = 1` advances too (log
entry 17, DEDUCED). -/
def Obligations.AdvanceAddsPcStep : Prop :=
  ∀ s : State, s.halted = false →
    ∃ t, respond ⟨false, none, true⟩ s = .next t ∧ t.pc.toNat = (s.pc.toNat + s.params.pcStep.toNat) % 2 ^ 32 ∧
      SameRegs s t ∧ SameMemory s t ∧ SameLatch s t ∧ SameHost s t ∧ t.pcWe = s.pcWe

/-! ### JMP -/

/-- R121, R122 (decision D1): a skipped JMP changes nothing, whatever its offset field holds. -/
def Obligations.SkippedJmpChangesNothing : Prop :=
  ∀ (s : State) (f : Bool) (b : RegIx) (c : Bool) (cr : RegIx) (o : BitVec 20), s.halted = false → skipHolds c cr s →
    ∃ t, exec (.jmp f b c cr o) s = .next t ∧ ChangesNothing s t

/-- R121, R29 (decisions D1, D7): a JMP that is not skipped sets the PC to base plus offset modulo 2^32, and writes nothing
else. -/
def Obligations.TakenJmpSetsThePc : Prop :=
  ∀ (s : State) (f : Bool) (b : RegIx) (c : Bool) (cr : RegIx) (o : BitVec 20), s.halted = false → ¬ skipHolds c cr s →
    OffsetNamed f o →
    ∃ t, exec (.jmp f b c cr o) s = .next t ∧ t.pc.toNat = ((s.reg b).toNat + offsetValue f o s) % 2 ^ 32 ∧
      WritesOnlyPc s t

/-- R121, R205 (decision D2): a JMP that is not skipped, in register-offset mode with an offset field of 8 or more, raises
RegIndexOutOfRange. -/
def Obligations.JmpWithNoSuchOffsetRegisterFaults : Prop :=
  ∀ (s : State) (b : RegIx) (c : Bool) (cr : RegIx) (o : BitVec 20), s.halted = false → ¬ skipHolds c cr s → 8 ≤ o.toNat →
    ∃ t, exec (.jmp false b c cr o) s = .next t ∧
      EntersFault (.regIndexOutOfRange o.toNat) 4#3 (encode (.jmp false b c cr o)) s t

/-! ### LD and PUT -/

/-- R53: `MemRead`, big-endian and zero-extended. -/
def Obligations.MemReadIsBigEndian : Prop :=
  ∀ (m : Memory) (ea : Nat),
    (m.read ea 1).toNat = byteAt m ea ∧
    (m.read ea 2).toNat = byteAt m ea * 2 ^ 8 + byteAt m (ea + 1) ∧
    (m.read ea 4).toNat = byteAt m ea * 2 ^ 24 + byteAt m (ea + 1) * 2 ^ 16 + byteAt m (ea + 2) * 2 ^ 8 + byteAt m (ea + 3) ∧
    (∀ n ∈ [1, 2, 4], (m.read ea n).toNat < 2 ^ (8 * n))

/-- R54: `MemWrite` writes the low `8n` bits big-endian and leaves every other byte unchanged. -/
def Obligations.MemWriteStoresTheLowBytesBigEndian : Prop :=
  ∀ (m : Memory) (ea : Nat) (v : Word),
    byteAt (m.write ea 1 v) ea = v.toNat % 2 ^ 8 ∧
    byteAt (m.write ea 2 v) ea = v.toNat / 2 ^ 8 % 2 ^ 8 ∧
    byteAt (m.write ea 2 v) (ea + 1) = v.toNat % 2 ^ 8 ∧
    byteAt (m.write ea 4 v) ea = v.toNat / 2 ^ 24 ∧
    byteAt (m.write ea 4 v) (ea + 1) = v.toNat / 2 ^ 16 % 2 ^ 8 ∧
    byteAt (m.write ea 4 v) (ea + 2) = v.toNat / 2 ^ 8 % 2 ^ 8 ∧
    byteAt (m.write ea 4 v) (ea + 3) = v.toNat % 2 ^ 8 ∧
    (∀ n ∈ [1, 2, 4], ∀ a, a < ea ∨ ea + n ≤ a → (m.write ea n v).readByte a = m.readByte a)

/-- R56: accesses of other widths see the bytes of a word that was stored. -/
def Obligations.MixedWidthReadsSeeTheStoredBytes : Prop :=
  ∀ (m : Memory) (ea : Nat) (v : Word),
    ((m.write ea 4 v).read ea 1).toNat = v.toNat / 2 ^ 24 ∧
    ((m.write ea 4 v).read (ea + 1) 1).toNat = v.toNat / 2 ^ 16 % 2 ^ 8 ∧
    ((m.write ea 4 v).read (ea + 2) 1).toNat = v.toNat / 2 ^ 8 % 2 ^ 8 ∧
    ((m.write ea 4 v).read (ea + 3) 1).toNat = v.toNat % 2 ^ 8 ∧
    ((m.write ea 4 v).read ea 2).toNat = v.toNat / 2 ^ 16 ∧
    ((m.write ea 4 v).read (ea + 1) 2).toNat = v.toNat / 2 ^ 8 % 2 ^ 16 ∧
    ((m.write ea 4 v).read (ea + 2) 2).toNat = v.toNat % 2 ^ 16

/-- R131, R133, R211 (decisions D3, D4, D9): the access of LD and PUT, and which fault is reported where several conditions
hold. -/
def Obligations.AccessIsResolvedInTheSpecsOrder : Prop :=
  ∀ (ws : BitVec 2) (f : Bool) (bf : RegIx) (o : BitVec 19) (s : State),
    (ws = 3#2 → resolveAccess ws f bf o s = .error (.invalidWidthSelector 3#2)) ∧
    (ws ≠ 3#2 → ¬ OffsetNamed f o → resolveAccess ws f bf o s = .error (.regIndexOutOfRange o.toNat)) ∧
    (ws ≠ 3#2 → OffsetNamed f o → 1048576 < effectiveAddress f bf o s + byteCount ws →
      resolveAccess ws f bf o s = .error (.memOutOfBounds (effectiveAddress f bf o s) (byteCount ws))) ∧
    (ws ≠ 3#2 → OffsetNamed f o → effectiveAddress f bf o s + byteCount ws ≤ 1048576 →
      resolveAccess ws f bf o s = .ok ⟨effectiveAddress f bf o s, byteCount ws⟩)

/-- R134 (decisions D3, D4): LD loads one, two or four bytes, big-endian and zero-extended, and writes only its destination. -/
def Obligations.LdLoadsBigEndianZeroExtended : Prop :=
  ∀ (s : State) (ws : BitVec 2) (f : Bool) (r bf : RegIx) (o : BitVec 19), s.halted = false → ws ≠ 3#2 →
    OffsetNamed f o → effectiveAddress f bf o s + byteCount ws ≤ 1048576 →
    ∃ t, exec (.ld ws f r bf o) s = .next t ∧
      (t.reg r).toNat = bigEndian s.mem (effectiveAddress f bf o s) ws ∧ WritesOnlyReg r s t

/-- R135 (decisions D3, D4): PUT stores the low bytes of its register, big-endian, and writes only them. -/
def Obligations.PutStoresTheLowBytesBigEndian : Prop :=
  ∀ (s : State) (ws : BitVec 2) (f : Bool) (r bf : RegIx) (o : BitVec 19), s.halted = false → ws ≠ 3#2 →
    OffsetNamed f o → effectiveAddress f bf o s + byteCount ws ≤ 1048576 →
    ∃ t, exec (.put ws f r bf o) s = .next t ∧
      bigEndian t.mem (effectiveAddress f bf o s) ws = (s.reg r).toNat % 2 ^ (8 * byteCount ws) ∧
      WritesOnlyBytes (effectiveAddress f bf o s) (byteCount ws) s t

/-- R54, R135: wherever the operation PUT uses to find its address puts the store, every byte outside it, every register, the
PC and the latch stay as they were. -/
def Obligations.PutWritesOnlyTheBytesOfItsResolvedAccess : Prop :=
  ∀ (s : State) (ws : BitVec 2) (f : Bool) (r bf : RegIx) (o : BitVec 19) (a : Access), s.halted = false →
    resolveAccess ws f bf o s = .ok a →
    ∃ t, exec (.put ws f r bf o) s = .next t ∧ WritesOnlyBytes a.ea a.n s t

/-- R131, R203, R205, R206, R211 (decisions D2, D3, D4, D9): where LD and PUT fault, in the order of the conditions. -/
def Obligations.LdAndPutFaultInTheSpecsOrder : Prop :=
  ∀ (s : State) (ws : BitVec 2) (f : Bool) (r bf : RegIx) (o : BitVec 19), s.halted = false →
    ∀ i ∈ [Instr.ld ws f r bf o, Instr.put ws f r bf o],
      (ws = 3#2 → ∃ t, exec i s = .next t ∧ EntersFault (.invalidWidthSelector 3#2) 2#3 (encode i) s t) ∧
      (ws ≠ 3#2 → ¬ OffsetNamed f o →
        ∃ t, exec i s = .next t ∧ EntersFault (.regIndexOutOfRange o.toNat) 4#3 (encode i) s t) ∧
      (ws ≠ 3#2 → OffsetNamed f o → 1048576 < effectiveAddress f bf o s + byteCount ws →
        ∃ t, exec i s = .next t ∧
          EntersFault (.memOutOfBounds (effectiveAddress f bf o s) (byteCount ws)) 5#3 (encode i) s t)

/-- R62: under the default `LDPUT_BASE = field` an immediate offset never leaves the memory, and reaches the bytes
0 .. 524,297 only. -/
def Obligations.ImmediateOffsetsStayInMemory : Prop :=
  ∀ (ws : BitVec 2) (bf : RegIx) (o : BitVec 19) (s : State), s.params.ldPutBase = .field → ws ≠ 3#2 →
    ∃ a, resolveAccess ws true bf o s = .ok a ∧ a.ea = bf.toNat + o.toNat ∧ a.ea + a.n ≤ 524298

/-- R136: a load from where a register was stored, with the same width, gives the register's low bytes. -/
def Obligations.LdAfterPutGivesTheStoredValue : Prop :=
  ∀ (s : State) (ws : BitVec 2) (f : Bool) (r q bf : RegIx) (o : BitVec 19), s.halted = false → ws ≠ 3#2 →
    OffsetNamed f o → effectiveAddress f bf o s + byteCount ws ≤ 1048576 →
    ∃ t u, exec (.put ws f r bf o) s = .next t ∧ exec (.ld ws f q bf o) t = .next u ∧
      (u.reg q).toNat = (s.reg r).toNat % 2 ^ (8 * byteCount ws)

/-! ### SET and SETU -/

/-- R151: SET's low 24 bits are the immediate, and its top byte is all ones or all zeros by the flag. -/
def Obligations.SetReplacesTheRegister : Prop :=
  ∀ (s : State) (rd : RegIx) (sx : Bool) (imm : BitVec 24),
    (encode (.set rd sx imm)).toNat = 3 + rd.toNat * 2 ^ 4 + sx.toNat * 2 ^ 7 + imm.toNat * 2 ^ 8 ∧
    (s.halted = false →
      ∃ t, exec (.set rd sx imm) s = .next t ∧ (t.reg rd).toNat = (if sx then 0xFF000000 else 0) + imm.toNat ∧
        WritesOnlyReg rd s t)

/-- R153 (decision D14): SETU replaces bits [30:24], clears bit [31] and keeps bits [23:0]. -/
def Obligations.SetuReplacesBits30To24 : Prop :=
  ∀ (s : State) (rd : RegIx) (imm : BitVec 7) (ign : BitVec 18), s.halted = false →
    ∃ t, exec (.setu rd imm ign) s = .next t ∧
      (t.reg rd).toNat = imm.toNat * 2 ^ 24 + (s.reg rd).toNat % 2 ^ 24 ∧ WritesOnlyReg rd s t

/-- R155: SET followed by SETU builds exactly the values below 2^31. -/
def Obligations.SetThenSetuBuildsExactlyTheValuesBelow2To31 : Prop :=
  ∀ (s : State) (rd : RegIx), s.halted = false →
    (∀ (sx : Bool) (l : BitVec 24) (h : BitVec 7) (ign : BitVec 18),
      ∃ t u, exec (.set rd sx l) s = .next t ∧ exec (.setu rd h ign) t = .next u ∧
        (u.reg rd).toNat = h.toNat * 2 ^ 24 + l.toNat ∧ (u.reg rd).toNat < 2 ^ 31) ∧
    (∀ v : Word, v.toNat < 2 ^ 31 →
      ∃ (l : BitVec 24) (h : BitVec 7), ∀ (sx : Bool) (ign : BitVec 18),
        ∃ t u, exec (.set rd sx l) s = .next t ∧ exec (.setu rd h ign) t = .next u ∧ u.reg rd = v)

/-! ### Arithmetic -/

/-- R163: ADD. -/
def Obligations.AddWritesTheSumModulo2To32 : Prop :=
  ∀ (s : State) (rd ra rb : RegIx) (f : Bool) (imm : BitVec 18),
    (encode (.add rd ra rb f imm)).toNat = formatAWord 5 rd ra rb f imm ∧
    (s.halted = false →
      ∃ t, exec (.add rd ra rb f imm) s = .next t ∧
        (t.reg rd).toNat = ((s.reg ra).toNat + operandBValue rb f imm s) % 2 ^ 32 ∧ WritesOnlyReg rd s t)

/-- R164: SUB. -/
def Obligations.SubWritesTheDifferenceModulo2To32 : Prop :=
  ∀ (s : State) (rd ra rb : RegIx) (f : Bool) (imm : BitVec 18),
    (encode (.sub rd ra rb f imm)).toNat = formatAWord 6 rd ra rb f imm ∧
    (s.halted = false →
      ∃ t, exec (.sub rd ra rb f imm) s = .next t ∧
        (t.reg rd).toNat = ((s.reg ra).toNat + 2 ^ 32 - operandBValue rb f imm s) % 2 ^ 32 ∧ WritesOnlyReg rd s t)

/-- R165: MUL. -/
def Obligations.MulWritesTheProductModulo2To32 : Prop :=
  ∀ (s : State) (rd ra rb : RegIx) (f : Bool) (imm : BitVec 18),
    (encode (.mul rd ra rb f imm)).toNat = formatAWord 7 rd ra rb f imm ∧
    (s.halted = false →
      ∃ t, exec (.mul rd ra rb f imm) s = .next t ∧
        (t.reg rd).toNat = ((s.reg ra).toNat * operandBValue rb f imm s) % 2 ^ 32 ∧ WritesOnlyReg rd s t)

/-- R161: ADD, SUB and MUL are the exact integer result modulo 2^32, whether the operand words are read as unsigned or as
two's-complement numbers, and none of them faults. -/
def Obligations.AddSubMulWrapInBothReadings : Prop :=
  ∀ (s : State) (rd ra rb : RegIx) (f : Bool) (imm : BitVec 18), s.halted = false →
    ∀ p ∈ [(Instr.add, (fun a b => a + b : Int → Int → Int)), (Instr.sub, fun a b => a - b), (Instr.mul, fun a b => a * b)],
      ∃ t, exec (p.1 rd ra rb f imm) s = .next t ∧ t.halted = false ∧
        ((t.reg rd).toNat : Int) = p.2 (s.reg ra).toNat (operandBValue rb f imm s) % 2 ^ 32 ∧
        (t.reg rd).toInt = (p.2 (s.reg ra).toInt (BitVec.ofNat 32 (operandBValue rb f imm s)).toInt).bmod (2 ^ 32)

/-- R162, R166 (decision D5): DIV writes the unsigned floor quotient. -/
def Obligations.DivWritesTheUnsignedQuotient : Prop :=
  ∀ (s : State) (rd ra rb : RegIx) (f : Bool) (imm : BitVec 18), s.halted = false → operandBValue rb f imm s ≠ 0 →
    ∃ t, exec (.div rd ra rb f imm) s = .next t ∧
      (t.reg rd).toNat = (s.reg ra).toNat / operandBValue rb f imm s ∧ WritesOnlyReg rd s t

/-- R162, R167 (decision D5): MOD writes the unsigned remainder. -/
def Obligations.ModWritesTheUnsignedRemainder : Prop :=
  ∀ (s : State) (rd ra rb : RegIx) (f : Bool) (imm : BitVec 18), s.halted = false → operandBValue rb f imm s ≠ 0 →
    ∃ t, exec (.mod rd ra rb f imm) s = .next t ∧
      (t.reg rd).toNat = (s.reg ra).toNat % operandBValue rb f imm s ∧ WritesOnlyReg rd s t

/-- R204: DIV and MOD with operand B = 0, from a register or an immediate, raise DivideByZero with their opcode (code and
record: decision D8). -/
def Obligations.DivAndModByZeroFault : Prop :=
  ∀ (s : State) (rd ra rb : RegIx) (f : Bool) (imm : BitVec 18), s.halted = false → operandBValue rb f imm s = 0 →
    (∃ t, exec (.div rd ra rb f imm) s = .next t ∧
      EntersFault (.divideByZero 8#4) 3#3 (encode (.div rd ra rb f imm)) s t) ∧
    (∃ t, exec (.mod rd ra rb f imm) s = .next t ∧
      EntersFault (.divideByZero 9#4) 3#3 (encode (.mod rd ra rb f imm)) s t)

/-- R168: the quotient and the remainder of the same operands reassemble the dividend, without wrap-around. -/
def Obligations.DivAndModReassembleTheDividend : Prop :=
  ∀ (s : State) (rd rq ra rb : RegIx) (f : Bool) (imm : BitVec 18), s.halted = false → operandBValue rb f imm s ≠ 0 →
    ∃ t u, exec (.div rd ra rb f imm) s = .next t ∧ exec (.mod rq ra rb f imm) s = .next u ∧
      (t.reg rd).toNat * operandBValue rb f imm s + (u.reg rq).toNat = (s.reg ra).toNat ∧
      (u.reg rq).toNat < operandBValue rb f imm s

/-! ### Bitwise -/

/-- R181: AND, bit by bit. -/
def Obligations.AndCombinesBitByBit : Prop :=
  ∀ (s : State) (rd ra rb : RegIx) (f : Bool) (imm : BitVec 18),
    (encode (.and rd ra rb f imm)).toNat = formatAWord 10 rd ra rb f imm ∧
    (s.halted = false →
      ∃ t, exec (.and rd ra rb f imm) s = .next t ∧
        (∀ j, j < 32 → (t.reg rd).getLsbD j = ((s.reg ra).getLsbD j && operandBBit rb f imm s j)) ∧
        WritesOnlyReg rd s t)

/-- R182: OR, bit by bit. -/
def Obligations.OrCombinesBitByBit : Prop :=
  ∀ (s : State) (rd ra rb : RegIx) (f : Bool) (imm : BitVec 18),
    (encode (.or rd ra rb f imm)).toNat = formatAWord 11 rd ra rb f imm ∧
    (s.halted = false →
      ∃ t, exec (.or rd ra rb f imm) s = .next t ∧
        (∀ j, j < 32 → (t.reg rd).getLsbD j = ((s.reg ra).getLsbD j || operandBBit rb f imm s j)) ∧
        WritesOnlyReg rd s t)

/-- R183: XOR, bit by bit. -/
def Obligations.XorCombinesBitByBit : Prop :=
  ∀ (s : State) (rd ra rb : RegIx) (f : Bool) (imm : BitVec 18),
    (encode (.xor rd ra rb f imm)).toNat = formatAWord 12 rd ra rb f imm ∧
    (s.halted = false →
      ∃ t, exec (.xor rd ra rb f imm) s = .next t ∧
        (∀ j, j < 32 → (t.reg rd).getLsbD j = ((s.reg ra).getLsbD j ^^ operandBBit rb f imm s j)) ∧
        WritesOnlyReg rd s t)

/-! ### Shift -/

/-- R192: BSR, bit by bit: without rotate zeros come in from the left, with rotate the bits shifted out do. -/
def Obligations.BsrShiftsOrRotatesRight : Prop :=
  ∀ (s : State) (rd rs : RegIx) (k : BitVec 5) (rot : Bool) (ign : BitVec 16),
    (encode (.bsr rd rs k rot ign)).toNat = formatHWord 13 rd rs k rot ign ∧
    (s.halted = false →
      ∃ t, exec (.bsr rd rs k rot ign) s = .next t ∧
        (∀ j, j < 32 → (t.reg rd).getLsbD j =
          if rot then (s.reg rs).getLsbD ((j + k.toNat) % 32)
          else decide (j + k.toNat ≤ 31) && (s.reg rs).getLsbD (j + k.toNat)) ∧
        WritesOnlyReg rd s t)

/-- R193: BSL, bit by bit. -/
def Obligations.BslShiftsOrRotatesLeft : Prop :=
  ∀ (s : State) (rd rs : RegIx) (k : BitVec 5) (rot : Bool) (ign : BitVec 16),
    (encode (.bsl rd rs k rot ign)).toNat = formatHWord 14 rd rs k rot ign ∧
    (s.halted = false →
      ∃ t, exec (.bsl rd rs k rot ign) s = .next t ∧
        (∀ j, j < 32 → (t.reg rd).getLsbD j =
          if rot then (s.reg rs).getLsbD ((j + 32 - k.toNat) % 32)
          else decide (k.toNat ≤ j) && (s.reg rs).getLsbD (j - k.toNat)) ∧
        WritesOnlyReg rd s t)

/-- R194: (a) rotations by the same amount undo each other in either order; (b) right by `k` is left by `(32 - k) mod 32`;
(c) shifts by the same amount lose exactly the low, or the high, `k` bits. -/
def Obligations.ShiftsAndRotationsUndoEachOther : Prop :=
  ∀ (s : State) (rd rq rs : RegIx) (k : BitVec 5) (g g' : BitVec 16), s.halted = false →
    (∃ t u, exec (.bsl rd rs k true g) s = .next t ∧ exec (.bsr rq rd k true g') t = .next u ∧ u.reg rq = s.reg rs) ∧
    (∃ t u, exec (.bsr rd rs k true g) s = .next t ∧ exec (.bsl rq rd k true g') t = .next u ∧ u.reg rq = s.reg rs) ∧
    (∃ t u, exec (.bsr rd rs k true g) s = .next t ∧
      exec (.bsl rq rs (BitVec.ofNat 5 ((32 - k.toNat) % 32)) true g') s = .next u ∧ t.reg rd = u.reg rq) ∧
    (∃ t u, exec (.bsr rd rs k false g) s = .next t ∧ exec (.bsl rq rd k false g') t = .next u ∧
      (u.reg rq).toNat = (s.reg rs).toNat - (s.reg rs).toNat % 2 ^ k.toNat) ∧
    (∃ t u, exec (.bsl rd rs k false g) s = .next t ∧ exec (.bsr rq rd k false g') t = .next u ∧
      (u.reg rq).toNat = (s.reg rs).toNat % 2 ^ (32 - k.toNat))

/-! ### The illegal opcode and the encodings that act as no-ops -/

/-- R101, R202: every word with opcode 15, whatever its other 28 bits, raises InvalidOpcode (code and record: decision D8;
latch: decision D10). -/
def Obligations.Opcode15RaisesInvalidOpcode : Prop :=
  ∀ (s : State) (rest : BitVec 28),
    (encode (.illegal rest)).toNat = 15 + rest.toNat * 2 ^ 4 ∧
    (s.halted = false →
      ∃ t, exec (.illegal rest) s = .next t ∧
        EntersFault (.invalidOpcode 15#4) 1#3 (encode (.illegal rest)) s t)

/-- R104: the encodings that complete with no change, whatever their ignored bits. -/
def Obligations.NoOpEncodingsChangeNothing : Prop :=
  ∀ (s : State) (r q : RegIx) (imm : BitVec 18) (rot : Bool) (ign : BitVec 16), s.halted = false →
    ∀ i ∈ [Instr.add r r q true 0, Instr.sub r r q true 0, Instr.or r r r false imm, Instr.and r r r false imm,
        Instr.bsr r r 0 rot ign, Instr.bsl r r 0 rot ign, Instr.mul r r q true 1, Instr.div r r q true 1],
      ∃ t, exec i s = .next t ∧ ChangesNothing s t

/-! ### Steps -/

/-- R237, R238, R239 (decision D12): a step runs the instruction decoded from the word at the PC, and then advances the PC
unless the instruction wrote it or faulted. That `pc_we` keeps its value over the advance is log entry 3 (DESIGN CHOICE). -/
def Obligations.StepRunsTheInstructionAtThePc : Prop :=
  ∀ (s t : State) (w : Word), s.halted = false → s.fetchWord = some w → exec (decode w) s = .next t →
    step s = .next (if t.halted = true ∨ t.pcWe = true then t else { t with pc := t.pc + s.params.pcStep })

/-- R38, R239, R243 (decisions D12, D13): the reference host's step as CORE's boundary sees it: it presents the word at the
PC, and then an advance, unless the instruction wrote the PC or faulted. -/
def Obligations.StepPresentsTheWordAndThenAdvances : Prop :=
  ∀ (s t : State) (w : Word), s.halted = false → s.fetchWord = some w → respond ⟨false, some w, false⟩ s = .next t →
    (t.halted = true ∨ t.pcWe = true → step s = .next t) ∧
    (t.halted = false → t.pcWe = false → step s = respond ⟨false, none, true⟩ t)

/-- R239, R240 (decision D12): there is no step exactly in a failed and in a finished run, and the two are told apart. -/
def Obligations.StepStopsExactlyAtTheEndsOfARun : Prop :=
  ∀ s : State,
    (step s = .fault .halted ↔ s.failed) ∧ (step s = .fault .endOfRun ↔ s.finished) ∧
    ((∃ t, step s = .next t) ↔ ¬ s.failed ∧ ¬ s.finished)

/-- R237: a word placed where the host fetches is the word fetched; every other address of the store, and everything else,
stays. -/
def Obligations.PlacedWordIsTheOneFetched : Prop :=
  ∀ (s : State) (nbits w : Nat), nbits ≤ 32 →
    (s.withFetchWord nbits w).fetchWord = some (BitVec.ofNat 32 (w % 2 ^ nbits)) ∧
    decodeTableWord nbits w = some (decode (BitVec.ofNat 32 (w % 2 ^ nbits))) ∧
    (∀ a, a ≠ s.pc.toNat → cellLookup (s.withFetchWord nbits w).imem a = cellLookup s.imem a) ∧
    { s.withFetchWord nbits w with imem := s.imem } = s

/-- R67, R237: no step changes the host's instruction store, so no PUT is ever seen by a fetch; nor the parameters. -/
def Obligations.NoStepChangesTheInstructionStore : Prop :=
  ∀ s t : State, step s = .next t → SameHost s t ∧ ∀ a, cellLookup t.imem a = cellLookup s.imem a

/-- The invariant (R31, R36, R40, R201, R237) holds at reset. -/
def Obligations.ResetSatisfiesTheInvariant : Prop := State.reset.Inv

/-- The invariant is kept by every step: memory stays canonical and inside its 1,048,576 bytes, the store canonical, and the
latch clear or holding one of R201's records, agreeing with the word it names. -/
def Obligations.EveryStepKeepsTheInvariant : Prop := ∀ s t : State, s.Inv → step s = .next t → t.Inv

/-- The invariant is kept by everything the host can present to CORE, reset included. -/
def Obligations.EveryHostRequestKeepsTheInvariant : Prop :=
  ∀ (q : HostRequest) (s t : State), s.Inv → respond q s = .next t → t.Inv

/-- R233: a launch image with a canonical memory, written into any state of the invariant, gives a state of it. -/
def Obligations.LaunchStatesKeepTheInvariant : Prop :=
  ∀ (s : State) (im : LaunchImage), s.Inv → im.mem.wf → (s.launch im).Inv
end

