-- ==== Sys2Proof/Laws/Cells.lean ====
section
/-! SUPPORT. The laws of the address lists of Machine/Cells.lean: read after write, and the canonical form. -/

namespace Sys2Proof.Machine

variable {α : Type}

theorem cellLookup_erase_same (c : List (Nat × α)) (a : Nat) : cellLookup (cellErase c a) a = none := by
  induction c with
  | nil => rfl
  | cons e rest ih =>
    obtain ⟨k, v⟩ := e
    by_cases h : k = a
    · simpa [cellErase, h] using ih
    · have h' : a ≠ k := Ne.symm h
      simpa [cellErase, cellLookup, h, h'] using ih

theorem cellLookup_erase_other (c : List (Nat × α)) {a b : Nat} (h : b ≠ a) :
    cellLookup (cellErase c a) b = cellLookup c b := by
  induction c with
  | nil => rfl
  | cons e rest ih =>
    obtain ⟨k, v⟩ := e
    by_cases hk : k = a
    · subst hk
      simpa [cellErase, cellLookup, h] using ih
    · simp only [cellErase, ne_eq, hk, not_false_eq_true, decide_true, List.filter_cons_of_pos, cellLookup]
      split
      · rfl
      · exact ih

theorem cellLookup_insert_same (c : List (Nat × α)) (a : Nat) (v : α) (h : cellLookup c a = none) :
    cellLookup (cellInsert c a v) a = some v := by
  induction c with
  | nil => simp [cellInsert, cellLookup]
  | cons e rest ih =>
    obtain ⟨k, u⟩ := e
    simp only [cellLookup] at h
    split at h
    · cases h
    · rename_i hk
      simp only [cellInsert]
      split
      · simp [cellLookup]
      · simp [cellLookup, hk, ih h]

theorem cellLookup_insert_other (c : List (Nat × α)) {a b : Nat} (v : α) (h : b ≠ a) :
    cellLookup (cellInsert c a v) b = cellLookup c b := by
  induction c with
  | nil => simp [cellInsert, cellLookup, h]
  | cons e rest ih =>
    obtain ⟨k, u⟩ := e
    simp only [cellInsert]
    split
    · simp [cellLookup, h]
    · simp only [cellLookup, ih]

@[simp] theorem cellLookup_put_same (c : List (Nat × α)) (a : Nat) (v : α) : cellLookup (cellPut c a v) a = some v :=
  cellLookup_insert_same _ _ _ (cellLookup_erase_same c a)

theorem cellLookup_put_other (c : List (Nat × α)) {a b : Nat} (v : α) (h : b ≠ a) :
    cellLookup (cellPut c a v) b = cellLookup c b := by
  rw [cellPut, cellLookup_insert_other _ _ h, cellLookup_erase_other _ h]

theorem mem_cellErase {c : List (Nat × α)} {a : Nat} {e : Nat × α} : e ∈ cellErase c a ↔ e ∈ c ∧ e.1 ≠ a := by
  simp [cellErase]

theorem mem_cellInsert {c : List (Nat × α)} {a : Nat} {v : α} {e : Nat × α} :
    e ∈ cellInsert c a v ↔ e = (a, v) ∨ e ∈ c := by
  induction c with
  | nil => simp [cellInsert]
  | cons d rest ih =>
    obtain ⟨k, u⟩ := d
    simp only [cellInsert]
    split
    · simp
    · simp only [List.mem_cons, ih]; tauto

theorem mem_cellPut {c : List (Nat × α)} {a : Nat} {v : α} {e : Nat × α} :
    e ∈ cellPut c a v ↔ e = (a, v) ∨ (e ∈ c ∧ e.1 ≠ a) := by
  rw [cellPut, mem_cellInsert, mem_cellErase]

theorem cellErase_rising {c : List (Nat × α)} (h : CellsRising c) (a : Nat) : CellsRising (cellErase c a) :=
  h.filter _

theorem cellInsert_rising {c : List (Nat × α)} (h : CellsRising c) {a : Nat} (v : α) (ha : ∀ e ∈ c, e.1 ≠ a) :
    CellsRising (cellInsert c a v) := by
  induction c with
  | nil => simp [cellInsert, CellsRising]
  | cons d rest ih =>
    obtain ⟨k, u⟩ := d
    obtain ⟨hk, hr⟩ := List.pairwise_cons.1 h
    have hne : k ≠ a := ha (k, u) (by simp)
    simp only [cellInsert]
    split
    · rename_i hlt
      refine List.pairwise_cons.2 ⟨?_, h⟩
      intro e he
      rcases List.mem_cons.1 he with rfl | he
      · exact hlt
      · exact hlt.trans (hk e he)
    · refine List.pairwise_cons.2 ⟨?_, ih hr fun e he => ha e (by simp [he])⟩
      intro e he
      rcases mem_cellInsert.1 he with rfl | he
      · show k < a
        omega
      · exact hk e he

theorem cellPut_rising {c : List (Nat × α)} (h : CellsRising c) (a : Nat) (v : α) : CellsRising (cellPut c a v) :=
  cellInsert_rising (cellErase_rising h a) v fun _ he => (mem_cellErase.1 he).2

end Sys2Proof.Machine
end

