-- ==== Sys2Proof/Laws/Decode.lean ====
section
/-! SUPPORT. What each encoding function of Decode.lean gives: its word as the sum of its fields at their places
(spec/30_encoding.md R111). -/

namespace Sys2Proof

/-- A field at its place, as a number. -/
theorem place_toNat {n : Nat} (v : BitVec n) (pos : Nat) (h : n + pos ≤ 32) : (place v pos).toNat = v.toNat * 2 ^ pos := by
  have h1 : v.toNat * 2 ^ pos < 2 ^ 32 := by
    calc v.toNat * 2 ^ pos < 2 ^ n * 2 ^ pos := Nat.mul_lt_mul_of_pos_right v.isLt (Nat.two_pow_pos pos)
      _ = 2 ^ (n + pos) := (Nat.pow_add 2 n pos).symm
      _ ≤ 2 ^ 32 := Nat.pow_le_pow_right (by omega) h
  have h2 : v.toNat < 2 ^ 32 := lt_of_lt_of_le v.isLt (Nat.pow_le_pow_right (by omega) (by omega))
  simp only [place, BitVec.toNat_shiftLeft, BitVec.toNat_setWidth, Nat.mod_eq_of_lt h2, Nat.shiftLeft_eq]
  exact Nat.mod_eq_of_lt h1

theorem placeFlag_toNat (f : Bool) (pos : Nat) (h : pos < 32) : (placeFlag f pos).toNat = f.toNat * 2 ^ pos := by
  rw [placeFlag, place_toNat _ _ (by omega), BitVec.toNat_ofBool]

/-- A word whose low bits are below a field's place, joined with that field: the numbers add. -/
theorem or_place_toNat {n : Nat} (w : Word) (v : BitVec n) (pos : Nat) (h : n + pos ≤ 32) (hw : w.toNat < 2 ^ pos) :
    (w ||| place v pos).toNat = w.toNat + v.toNat * 2 ^ pos := by
  rw [BitVec.toNat_or, place_toNat v pos h, Nat.or_comm, ← Nat.shiftLeft_eq, ← Nat.shiftLeft_add_eq_or_of_lt hw, Nat.add_comm]

/-- `or_place_toNat` for a flag. -/
theorem or_placeFlag_toNat (w : Word) (f : Bool) (pos : Nat) (h : pos < 32) (hw : w.toNat < 2 ^ pos) :
    (w ||| placeFlag f pos).toNat = w.toNat + f.toNat * 2 ^ pos := by
  rw [placeFlag, or_place_toNat _ _ _ (by omega) hw, BitVec.toNat_ofBool]

/-- The opcode at its place. -/
theorem place_zero_toNat (op : BitVec 4) : (place op 0).toNat = op.toNat := by
  rw [place_toNat _ _ (by omega)]; simp

/-- R111, format J. -/
theorem encodeJ_toNat (op : BitVec 4) (i : Bool) (b : RegIx) (c : Bool) (cr : RegIx) (o : BitVec 20) :
    (encodeJ op i b c cr o).toNat =
      op.toNat + i.toNat * 2 ^ 4 + b.toNat * 2 ^ 5 + c.toNat * 2 ^ 8 + cr.toNat * 2 ^ 9 + o.toNat * 2 ^ 12 := by
  have h0 := op.isLt
  have e0 := place_zero_toNat op
  have e1 := or_placeFlag_toNat (place op 0) i 4 (by omega) (by omega)
  have h1 := Bool.toNat_lt i
  have e2 := or_place_toNat (place op 0 ||| placeFlag i 4) b 5 (by omega) (by omega)
  have h2 := b.isLt
  have e3 := or_placeFlag_toNat (place op 0 ||| placeFlag i 4 ||| place b 5) c 8 (by omega) (by omega)
  have h3 := Bool.toNat_lt c
  have e4 := or_place_toNat (place op 0 ||| placeFlag i 4 ||| place b 5 ||| placeFlag c 8) cr 9 (by omega) (by omega)
  have h4 := cr.isLt
  have e5 := or_place_toNat (place op 0 ||| placeFlag i 4 ||| place b 5 ||| placeFlag c 8 ||| place cr 9) o 12 (by omega) (by omega)
  have h5 := o.isLt
  simp only [encodeJ]
  omega

/-- R111, format M. -/
theorem encodeM_toNat (op : BitVec 4) (ws : BitVec 2) (i : Bool) (r : RegIx) (bf : RegIx) (o : BitVec 19) :
    (encodeM op ws i r bf o).toNat =
      op.toNat + ws.toNat * 2 ^ 4 + i.toNat * 2 ^ 6 + r.toNat * 2 ^ 7 + bf.toNat * 2 ^ 10 + o.toNat * 2 ^ 13 := by
  have h0 := op.isLt
  have e0 := place_zero_toNat op
  have e1 := or_place_toNat (place op 0) ws 4 (by omega) (by omega)
  have h1 := ws.isLt
  have e2 := or_placeFlag_toNat (place op 0 ||| place ws 4) i 6 (by omega) (by omega)
  have h2 := Bool.toNat_lt i
  have e3 := or_place_toNat (place op 0 ||| place ws 4 ||| placeFlag i 6) r 7 (by omega) (by omega)
  have h3 := r.isLt
  have e4 := or_place_toNat (place op 0 ||| place ws 4 ||| placeFlag i 6 ||| place r 7) bf 10 (by omega) (by omega)
  have h4 := bf.isLt
  have e5 := or_place_toNat (place op 0 ||| place ws 4 ||| placeFlag i 6 ||| place r 7 ||| place bf 10) o 13 (by omega) (by omega)
  have h5 := o.isLt
  simp only [encodeM]
  omega

/-- R111, format S. -/
theorem encodeS_toNat (op : BitVec 4) (rd : RegIx) (sx : Bool) (imm : BitVec 24) :
    (encodeS op rd sx imm).toNat =
      op.toNat + rd.toNat * 2 ^ 4 + sx.toNat * 2 ^ 7 + imm.toNat * 2 ^ 8 := by
  have h0 := op.isLt
  have e0 := place_zero_toNat op
  have e1 := or_place_toNat (place op 0) rd 4 (by omega) (by omega)
  have h1 := rd.isLt
  have e2 := or_placeFlag_toNat (place op 0 ||| place rd 4) sx 7 (by omega) (by omega)
  have h2 := Bool.toNat_lt sx
  have e3 := or_place_toNat (place op 0 ||| place rd 4 ||| placeFlag sx 7) imm 8 (by omega) (by omega)
  have h3 := imm.isLt
  simp only [encodeS]
  omega

/-- R111, format U. -/
theorem encodeU_toNat (op : BitVec 4) (rd : RegIx) (imm : BitVec 7) (ign : BitVec 18) :
    (encodeU op rd imm ign).toNat =
      op.toNat + rd.toNat * 2 ^ 4 + imm.toNat * 2 ^ 7 + ign.toNat * 2 ^ 14 := by
  have h0 := op.isLt
  have e0 := place_zero_toNat op
  have e1 := or_place_toNat (place op 0) rd 4 (by omega) (by omega)
  have h1 := rd.isLt
  have e2 := or_place_toNat (place op 0 ||| place rd 4) imm 7 (by omega) (by omega)
  have h2 := imm.isLt
  have e3 := or_place_toNat (place op 0 ||| place rd 4 ||| place imm 7) ign 14 (by omega) (by omega)
  have h3 := ign.isLt
  simp only [encodeU]
  omega

/-- R111, format A. -/
theorem encodeA_toNat (op : BitVec 4) (rd : RegIx) (ra : RegIx) (rb : RegIx) (i : Bool) (imm : BitVec 18) :
    (encodeA op rd ra rb i imm).toNat =
      op.toNat + rd.toNat * 2 ^ 4 + ra.toNat * 2 ^ 7 + rb.toNat * 2 ^ 10 + i.toNat * 2 ^ 13 + imm.toNat * 2 ^ 14 := by
  have h0 := op.isLt
  have e0 := place_zero_toNat op
  have e1 := or_place_toNat (place op 0) rd 4 (by omega) (by omega)
  have h1 := rd.isLt
  have e2 := or_place_toNat (place op 0 ||| place rd 4) ra 7 (by omega) (by omega)
  have h2 := ra.isLt
  have e3 := or_place_toNat (place op 0 ||| place rd 4 ||| place ra 7) rb 10 (by omega) (by omega)
  have h3 := rb.isLt
  have e4 := or_placeFlag_toNat (place op 0 ||| place rd 4 ||| place ra 7 ||| place rb 10) i 13 (by omega) (by omega)
  have h4 := Bool.toNat_lt i
  have e5 := or_place_toNat (place op 0 ||| place rd 4 ||| place ra 7 ||| place rb 10 ||| placeFlag i 13) imm 14 (by omega) (by omega)
  have h5 := imm.isLt
  simp only [encodeA]
  omega

/-- R111, format H. -/
theorem encodeH_toNat (op : BitVec 4) (rd : RegIx) (rs : RegIx) (k : BitVec 5) (rot : Bool) (ign : BitVec 16) :
    (encodeH op rd rs k rot ign).toNat =
      op.toNat + rd.toNat * 2 ^ 4 + rs.toNat * 2 ^ 7 + k.toNat * 2 ^ 10 + rot.toNat * 2 ^ 15 + ign.toNat * 2 ^ 16 := by
  have h0 := op.isLt
  have e0 := place_zero_toNat op
  have e1 := or_place_toNat (place op 0) rd 4 (by omega) (by omega)
  have h1 := rd.isLt
  have e2 := or_place_toNat (place op 0 ||| place rd 4) rs 7 (by omega) (by omega)
  have h2 := rs.isLt
  have e3 := or_place_toNat (place op 0 ||| place rd 4 ||| place rs 7) k 10 (by omega) (by omega)
  have h3 := k.isLt
  have e4 := or_placeFlag_toNat (place op 0 ||| place rd 4 ||| place rs 7 ||| place k 10) rot 15 (by omega) (by omega)
  have h4 := Bool.toNat_lt rot
  have e5 := or_place_toNat (place op 0 ||| place rd 4 ||| place rs 7 ||| place k 10 ||| placeFlag rot 15) ign 16 (by omega) (by omega)
  have h5 := ign.isLt
  simp only [encodeH]
  omega

end Sys2Proof
end

