-- ==== Sys2Proof/Laws/State.lean ====
section
/-! SUPPORT. One lemma per field per update of State, and the register file's two laws. -/

namespace Sys2Proof.Machine

/-! ### writeReg -/

@[simp] theorem State.writeReg_regs (s : State) (r : RegIx) (v : Word) :
    (s.writeReg r v).regs = s.regs.set r.toNat v := rfl
@[simp] theorem State.writeReg_pc (s : State) (r : RegIx) (v : Word) :
    (s.writeReg r v).pc = s.pc := rfl
@[simp] theorem State.writeReg_mem (s : State) (r : RegIx) (v : Word) :
    (s.writeReg r v).mem = s.mem := rfl
@[simp] theorem State.writeReg_halted (s : State) (r : RegIx) (v : Word) :
    (s.writeReg r v).halted = s.halted := rfl
@[simp] theorem State.writeReg_faultCode (s : State) (r : RegIx) (v : Word) :
    (s.writeReg r v).faultCode = s.faultCode := rfl
@[simp] theorem State.writeReg_faultInfo (s : State) (r : RegIx) (v : Word) :
    (s.writeReg r v).faultInfo = s.faultInfo := rfl
@[simp] theorem State.writeReg_pcWe (s : State) (r : RegIx) (v : Word) :
    (s.writeReg r v).pcWe = s.pcWe := rfl
@[simp] theorem State.writeReg_imem (s : State) (r : RegIx) (v : Word) :
    (s.writeReg r v).imem = s.imem := rfl
@[simp] theorem State.writeReg_params (s : State) (r : RegIx) (v : Word) :
    (s.writeReg r v).params = s.params := rfl

/-! ### writePc -/

@[simp] theorem State.writePc_regs (s : State) (t : Word) :
    (s.writePc t).regs = s.regs := rfl
@[simp] theorem State.writePc_pc (s : State) (t : Word) :
    (s.writePc t).pc = t := rfl
@[simp] theorem State.writePc_mem (s : State) (t : Word) :
    (s.writePc t).mem = s.mem := rfl
@[simp] theorem State.writePc_halted (s : State) (t : Word) :
    (s.writePc t).halted = s.halted := rfl
@[simp] theorem State.writePc_faultCode (s : State) (t : Word) :
    (s.writePc t).faultCode = s.faultCode := rfl
@[simp] theorem State.writePc_faultInfo (s : State) (t : Word) :
    (s.writePc t).faultInfo = s.faultInfo := rfl
@[simp] theorem State.writePc_pcWe (s : State) (t : Word) :
    (s.writePc t).pcWe = s.pcWe := rfl
@[simp] theorem State.writePc_imem (s : State) (t : Word) :
    (s.writePc t).imem = s.imem := rfl
@[simp] theorem State.writePc_params (s : State) (t : Word) :
    (s.writePc t).params = s.params := rfl

/-! ### store -/

@[simp] theorem State.store_regs (s : State) (ea n : Nat) (v : Word) :
    (s.store ea n v).regs = s.regs := rfl
@[simp] theorem State.store_pc (s : State) (ea n : Nat) (v : Word) :
    (s.store ea n v).pc = s.pc := rfl
@[simp] theorem State.store_mem (s : State) (ea n : Nat) (v : Word) :
    (s.store ea n v).mem = s.mem.write ea n v := rfl
@[simp] theorem State.store_halted (s : State) (ea n : Nat) (v : Word) :
    (s.store ea n v).halted = s.halted := rfl
@[simp] theorem State.store_faultCode (s : State) (ea n : Nat) (v : Word) :
    (s.store ea n v).faultCode = s.faultCode := rfl
@[simp] theorem State.store_faultInfo (s : State) (ea n : Nat) (v : Word) :
    (s.store ea n v).faultInfo = s.faultInfo := rfl
@[simp] theorem State.store_pcWe (s : State) (ea n : Nat) (v : Word) :
    (s.store ea n v).pcWe = s.pcWe := rfl
@[simp] theorem State.store_imem (s : State) (ea n : Nat) (v : Word) :
    (s.store ea n v).imem = s.imem := rfl
@[simp] theorem State.store_params (s : State) (ea n : Nat) (v : Word) :
    (s.store ea n v).params = s.params := rfl

/-! ### withPcWe -/

@[simp] theorem State.withPcWe_regs (s : State) (f : Bool) :
    (s.withPcWe f).regs = s.regs := rfl
@[simp] theorem State.withPcWe_pc (s : State) (f : Bool) :
    (s.withPcWe f).pc = s.pc := rfl
@[simp] theorem State.withPcWe_mem (s : State) (f : Bool) :
    (s.withPcWe f).mem = s.mem := rfl
@[simp] theorem State.withPcWe_halted (s : State) (f : Bool) :
    (s.withPcWe f).halted = s.halted := rfl
@[simp] theorem State.withPcWe_faultCode (s : State) (f : Bool) :
    (s.withPcWe f).faultCode = s.faultCode := rfl
@[simp] theorem State.withPcWe_faultInfo (s : State) (f : Bool) :
    (s.withPcWe f).faultInfo = s.faultInfo := rfl
@[simp] theorem State.withPcWe_pcWe (s : State) (f : Bool) :
    (s.withPcWe f).pcWe = f := rfl
@[simp] theorem State.withPcWe_imem (s : State) (f : Bool) :
    (s.withPcWe f).imem = s.imem := rfl
@[simp] theorem State.withPcWe_params (s : State) (f : Bool) :
    (s.withPcWe f).params = s.params := rfl

/-! ### enterFault -/

@[simp] theorem State.enterFault_regs (s : State) (f : FatalFault) (w : Word) :
    (s.enterFault f w).regs = s.regs := rfl
@[simp] theorem State.enterFault_pc (s : State) (f : FatalFault) (w : Word) :
    (s.enterFault f w).pc = s.pc := rfl
@[simp] theorem State.enterFault_mem (s : State) (f : FatalFault) (w : Word) :
    (s.enterFault f w).mem = s.mem := rfl
@[simp] theorem State.enterFault_halted (s : State) (f : FatalFault) (w : Word) :
    (s.enterFault f w).halted = true := rfl
@[simp] theorem State.enterFault_faultCode (s : State) (f : FatalFault) (w : Word) :
    (s.enterFault f w).faultCode = f.code := rfl
@[simp] theorem State.enterFault_faultInfo (s : State) (f : FatalFault) (w : Word) :
    (s.enterFault f w).faultInfo = .report f w := rfl
@[simp] theorem State.enterFault_pcWe (s : State) (f : FatalFault) (w : Word) :
    (s.enterFault f w).pcWe = false := rfl
@[simp] theorem State.enterFault_imem (s : State) (f : FatalFault) (w : Word) :
    (s.enterFault f w).imem = s.imem := rfl
@[simp] theorem State.enterFault_params (s : State) (f : FatalFault) (w : Word) :
    (s.enterFault f w).params = s.params := rfl

/-! ### placeAtPc -/

@[simp] theorem State.placeAtPc_regs (s : State) (w : Word) :
    (s.placeAtPc w).regs = s.regs := rfl
@[simp] theorem State.placeAtPc_pc (s : State) (w : Word) :
    (s.placeAtPc w).pc = s.pc := rfl
@[simp] theorem State.placeAtPc_mem (s : State) (w : Word) :
    (s.placeAtPc w).mem = s.mem := rfl
@[simp] theorem State.placeAtPc_halted (s : State) (w : Word) :
    (s.placeAtPc w).halted = s.halted := rfl
@[simp] theorem State.placeAtPc_faultCode (s : State) (w : Word) :
    (s.placeAtPc w).faultCode = s.faultCode := rfl
@[simp] theorem State.placeAtPc_faultInfo (s : State) (w : Word) :
    (s.placeAtPc w).faultInfo = s.faultInfo := rfl
@[simp] theorem State.placeAtPc_pcWe (s : State) (w : Word) :
    (s.placeAtPc w).pcWe = s.pcWe := rfl
@[simp] theorem State.placeAtPc_imem (s : State) (w : Word) :
    (s.placeAtPc w).imem = cellPut s.imem s.pc.toNat w := rfl
@[simp] theorem State.placeAtPc_params (s : State) (w : Word) :
    (s.placeAtPc w).params = s.params := rfl

/-! ### applyReset -/

@[simp] theorem State.applyReset_regs (s : State) :
    s.applyReset.regs = State.reset.regs := rfl
@[simp] theorem State.applyReset_pc (s : State) :
    s.applyReset.pc = State.reset.pc := rfl
@[simp] theorem State.applyReset_mem (s : State) :
    s.applyReset.mem = State.reset.mem := rfl
@[simp] theorem State.applyReset_halted (s : State) :
    s.applyReset.halted = State.reset.halted := rfl
@[simp] theorem State.applyReset_faultCode (s : State) :
    s.applyReset.faultCode = State.reset.faultCode := rfl
@[simp] theorem State.applyReset_faultInfo (s : State) :
    s.applyReset.faultInfo = State.reset.faultInfo := rfl
@[simp] theorem State.applyReset_pcWe (s : State) :
    s.applyReset.pcWe = State.reset.pcWe := rfl
@[simp] theorem State.applyReset_imem (s : State) :
    s.applyReset.imem = s.imem := rfl
@[simp] theorem State.applyReset_params (s : State) :
    s.applyReset.params = s.params := rfl

/-! ### advance -/

@[simp] theorem State.advance_regs (s : State) : s.advance.regs = s.regs := by unfold State.advance; split <;> rfl
@[simp] theorem State.advance_mem (s : State) : s.advance.mem = s.mem := by unfold State.advance; split <;> rfl
@[simp] theorem State.advance_halted (s : State) : s.advance.halted = s.halted := by unfold State.advance; split <;> rfl
@[simp] theorem State.advance_faultCode (s : State) : s.advance.faultCode = s.faultCode := by unfold State.advance; split <;> rfl
@[simp] theorem State.advance_faultInfo (s : State) : s.advance.faultInfo = s.faultInfo := by unfold State.advance; split <;> rfl
@[simp] theorem State.advance_pcWe (s : State) : s.advance.pcWe = s.pcWe := by unfold State.advance; split <;> rfl
@[simp] theorem State.advance_imem (s : State) : s.advance.imem = s.imem := by unfold State.advance; split <;> rfl
@[simp] theorem State.advance_params (s : State) : s.advance.params = s.params := by unfold State.advance; split <;> rfl

theorem State.advance_pc_running (s : State) (h : s.halted = false) : s.advance.pc = s.pc + s.params.pcStep := by
  simp [State.advance, h]

theorem State.advance_halted_eq (s : State) (h : s.halted = true) : s.advance = s := by simp [State.advance, h]

/-! ### The register file -/

/-- Two states agree on every register when their register files are equal. -/
theorem State.reg_congr {s t : State} (h : t.regs = s.regs) (q : RegIx) : t.reg q = s.reg q := by
  simp [State.reg, h]

@[simp] theorem State.reg_writeReg_same (s : State) (r : RegIx) (v : Word) : (s.writeReg r v).reg r = v := by
  simp [State.reg]

theorem State.reg_writeReg_other (s : State) {r q : RegIx} (v : Word) (h : q ≠ r) :
    (s.writeReg r v).reg q = s.reg q := by
  have : r.toNat ≠ q.toNat := fun e => h (BitVec.eq_of_toNat_eq e.symm)
  simp [State.reg, Vector.getElem_set_ne, this]

theorem State.reg_writeReg (s : State) (r q : RegIx) (v : Word) :
    (s.writeReg r v).reg q = if q = r then v else s.reg q := by
  by_cases h : q = r
  · subst h; simp
  · simp [h, State.reg_writeReg_other]

@[simp] theorem State.reg_writePc (s : State) (t : Word) (q : RegIx) : (s.writePc t).reg q = s.reg q := rfl
@[simp] theorem State.reg_store (s : State) (ea n : Nat) (v : Word) (q : RegIx) : (s.store ea n v).reg q = s.reg q := rfl
@[simp] theorem State.reg_withPcWe (s : State) (f : Bool) (q : RegIx) : (s.withPcWe f).reg q = s.reg q := rfl
@[simp] theorem State.reg_enterFault (s : State) (f : FatalFault) (w : Word) (q : RegIx) : (s.enterFault f w).reg q = s.reg q := rfl
@[simp] theorem State.reg_placeAtPc (s : State) (w : Word) (q : RegIx) : (s.placeAtPc w).reg q = s.reg q := rfl
@[simp] theorem State.reg_advance (s : State) (q : RegIx) : s.advance.reg q = s.reg q :=
  State.reg_congr (State.advance_regs s) q

theorem State.reg_reset (q : RegIx) : State.reset.reg q = resetRegister := by
  simp [State.reg, State.reset]

end Sys2Proof.Machine
end

