-- ==== Sys2Proof/Laws/Ops.lean ====
section
/-! SUPPORT. What each shared operation can do, said once: the outcome of an instruction, the operand forms, the skip test. -/

namespace Sys2Proof.Machine

/-! ### conclude -/

/-- R209: while halted, an instruction changes nothing. -/
theorem conclude_halted (w : Word) (r : InstrResult) {s : State} (h : s.halted = true) :
    conclude w r s = .next (s.withPcWe false) := by simp [conclude, h]

/-- R239: a running CORE applies a completed instruction's writes. -/
theorem conclude_completed (w : Word) (t : State) (p : Bool) {s : State} (h : s.halted = false) :
    conclude w (.completed t p) s = .next (t.withPcWe p) := by simp [conclude, h]

/-- R208: a running CORE enters the fault an instruction raises. -/
theorem conclude_fatal (w : Word) (f : FatalFault) {s : State} (h : s.halted = false) :
    conclude w (.fatal f) s = .next (s.enterFault f w) := by simp [conclude, h]

/-- Presenting an instruction has a next state, and it is one of three. -/
theorem conclude_cases {w : Word} {r : InstrResult} {s t : State} (h : conclude w r s = .next t) :
    (s.halted = true ∧ t = s.withPcWe false) ∨
    (s.halted = false ∧ ∃ u p, r = .completed u p ∧ t = u.withPcWe p) ∨
    (s.halted = false ∧ ∃ f, r = .fatal f ∧ t = s.enterFault f w) := by
  cases hs : s.halted with
  | true => rw [conclude_halted w r hs] at h; cases h; exact .inl ⟨rfl, rfl⟩
  | false =>
    cases r with
    | completed u p => rw [conclude_completed w u p hs] at h; cases h; exact .inr (.inl ⟨rfl, u, p, rfl, rfl⟩)
    | fatal f => rw [conclude_fatal w f hs] at h; cases h; exact .inr (.inr ⟨rfl, f, rfl, rfl⟩)

/-! ### Operand forms -/

@[simp] theorem resolveOffset_immediate {n : Nat} (o : BitVec n) (s : State) :
    resolveOffset true o s = .ok (o.setWidth 32) := rfl

theorem resolveOffset_register {n : Nat} (o : BitVec n) (s : State) (h : o.toNat ≤ 7) :
    resolveOffset false o s = .ok (s.reg (BitVec.ofNat 3 o.toNat)) := by simp [resolveOffset, regOffset, h]

theorem resolveOffset_outOfRange {n : Nat} (o : BitVec n) (s : State) (h : 8 ≤ o.toNat) :
    resolveOffset false o s = .error (.regIndexOutOfRange o.toNat) := by
  simp [resolveOffset, regOffset, show ¬ o.toNat ≤ 7 by omega]

/-- An offset that does not resolve is a register index out of range. -/
theorem resolveOffset_error {n : Nat} {i : Bool} {o : BitVec n} {s : State} {f : FatalFault}
    (h : resolveOffset i o s = .error f) : i = false ∧ 8 ≤ o.toNat ∧ f = .regIndexOutOfRange o.toNat := by
  cases i with
  | true => cases h
  | false =>
    simp only [resolveOffset, Bool.false_eq_true, if_false, regOffset] at h
    split at h
    · cases h
    · cases h; exact ⟨rfl, by omega, rfl⟩

@[simp] theorem operandB_immediate (rb : RegIx) (imm : BitVec 18) (s : State) :
    operandB rb true imm s = imm.setWidth 32 := rfl

@[simp] theorem operandB_register (rb : RegIx) (imm : BitVec 18) (s : State) : operandB rb false imm s = s.reg rb := rfl

theorem accessWidth_ok {ws : BitVec 2} {n : Nat} (h : accessWidth ws = .ok n) : ws ≠ 3#2 ∧ n = 2 ^ ws.toNat := by
  unfold accessWidth at h
  split at h
  · cases h
  · rename_i hw; cases h; exact ⟨hw, rfl⟩

theorem accessWidth_error {ws : BitVec 2} {f : FatalFault} (h : accessWidth ws = .error f) :
    ws = 3#2 ∧ f = .invalidWidthSelector 3#2 := by
  unfold accessWidth at h
  split at h
  · rename_i hw; cases h; exact ⟨hw, by rw [hw]⟩
  · cases h

theorem checkBounds_ok {a b : Access} (h : checkBounds a = .ok b) : b = a ∧ a.ea + a.n ≤ memSize := by
  unfold checkBounds at h
  split at h
  · cases h; exact ⟨rfl, ‹_›⟩
  · cases h

theorem checkBounds_error {a : Access} {f : FatalFault} (h : checkBounds a = .error f) :
    f = .memOutOfBounds a.ea a.n ∧ memSize < a.ea + a.n := by
  unfold checkBounds at h
  split at h
  · cases h
  · cases h; exact ⟨rfl, by omega⟩

/-- A resolved access has a legal width, its offset resolves, and it is admitted. -/
theorem resolveAccess_ok {ws : BitVec 2} {i : Bool} {bf : RegIx} {o : BitVec 19} {s : State} {a : Access}
    (h : resolveAccess ws i bf o s = .ok a) :
    ws ≠ 3#2 ∧ ∃ off, resolveOffset i o s = .ok off ∧ a = ⟨accessBase bf s + off.toNat, 2 ^ ws.toNat⟩ ∧
      a.ea + a.n ≤ memSize := by
  unfold resolveAccess at h
  split at h
  · cases h
  · rename_i n hn
    obtain ⟨hw, rfl⟩ := accessWidth_ok hn
    split at h
    · cases h
    · rename_i off ho
      obtain ⟨rfl, hle⟩ := checkBounds_ok h
      exact ⟨hw, off, ho, rfl, hle⟩

/-- An access that does not resolve: the first of the three conditions that holds. -/
theorem resolveAccess_error {ws : BitVec 2} {i : Bool} {bf : RegIx} {o : BitVec 19} {s : State} {f : FatalFault}
    (h : resolveAccess ws i bf o s = .error f) :
    (ws = 3#2 ∧ f = .invalidWidthSelector 3#2) ∨
    (ws ≠ 3#2 ∧ i = false ∧ 8 ≤ o.toNat ∧ f = .regIndexOutOfRange o.toNat) ∨
    (ws ≠ 3#2 ∧ ∃ off, resolveOffset i o s = .ok off ∧ memSize < accessBase bf s + off.toNat + 2 ^ ws.toNat ∧
      f = .memOutOfBounds (accessBase bf s + off.toNat) (2 ^ ws.toNat)) := by
  unfold resolveAccess at h
  split at h
  · rename_i g hg; cases h; exact .inl (accessWidth_error hg)
  · rename_i n hn
    obtain ⟨hw, rfl⟩ := accessWidth_ok hn
    split at h
    · rename_i g hg; cases h
      obtain ⟨h1, h2, h3⟩ := resolveOffset_error hg
      exact .inr (.inl ⟨hw, h1, h2, h3⟩)
    · rename_i off ho
      obtain ⟨h1, h2⟩ := checkBounds_error h
      exact .inr (.inr ⟨hw, off, ho, h2, h1⟩)

/-! ### The skip test -/

theorem truthy_iff (v : Word) : truthy v = true ↔ v ≠ 0#32 := by simp [truthy]

/-- A JMP without its skip flag is never skipped. -/
@[simp] theorem jumpSkipped_unconditional (cr : RegIx) (s : State) : jumpSkipped false cr s = false := rfl

/-- R121, R122: the skip test of a JMP with its flag set, under either sense. -/
theorem jumpSkipped_conditional (cr : RegIx) (s : State) :
    jumpSkipped true cr s = true ↔
      (s.params.jmpSkipOn = .nonzero ∧ s.reg cr ≠ 0#32) ∨ (s.params.jmpSkipOn = .zero ∧ s.reg cr = 0#32) := by
  cases h : s.params.jmpSkipOn <;> simp [jumpSkipped, truthy, h]

end Sys2Proof.Machine
end

