-- ==== Sys2Proof/Laws/Exec.lean ====
section
/-! SUPPORT. The next state of each instruction presented to a running CORE, over the shared operations, said once: provers
cite these instead of unfolding exec. -/

namespace Sys2Proof.Machine

/-! ### Format A -/

theorem exec_add_running (rd ra rb : RegIx) (f : Bool) (imm : BitVec 18) {s : State} (h : s.halted = false) :
    exec (.add rd ra rb f imm) s = .next ((s.writeReg rd (s.reg ra + operandB rb f imm s)).withPcWe false) := by
  simp only [exec, execAdd, formatAResult, conclude_completed _ _ _ h]

theorem exec_sub_running (rd ra rb : RegIx) (f : Bool) (imm : BitVec 18) {s : State} (h : s.halted = false) :
    exec (.sub rd ra rb f imm) s = .next ((s.writeReg rd (s.reg ra - operandB rb f imm s)).withPcWe false) := by
  simp only [exec, execSub, formatAResult, conclude_completed _ _ _ h]

theorem exec_mul_running (rd ra rb : RegIx) (f : Bool) (imm : BitVec 18) {s : State} (h : s.halted = false) :
    exec (.mul rd ra rb f imm) s = .next ((s.writeReg rd (s.reg ra * operandB rb f imm s)).withPcWe false) := by
  simp only [exec, execMul, formatAResult, conclude_completed _ _ _ h]

theorem exec_and_running (rd ra rb : RegIx) (f : Bool) (imm : BitVec 18) {s : State} (h : s.halted = false) :
    exec (.and rd ra rb f imm) s = .next ((s.writeReg rd (s.reg ra &&& operandB rb f imm s)).withPcWe false) := by
  simp only [exec, execAnd, formatAResult, conclude_completed _ _ _ h]

theorem exec_or_running (rd ra rb : RegIx) (f : Bool) (imm : BitVec 18) {s : State} (h : s.halted = false) :
    exec (.or rd ra rb f imm) s = .next ((s.writeReg rd (s.reg ra ||| operandB rb f imm s)).withPcWe false) := by
  simp only [exec, execOr, formatAResult, conclude_completed _ _ _ h]

theorem exec_xor_running (rd ra rb : RegIx) (f : Bool) (imm : BitVec 18) {s : State} (h : s.halted = false) :
    exec (.xor rd ra rb f imm) s = .next ((s.writeReg rd (s.reg ra ^^^ operandB rb f imm s)).withPcWe false) := by
  simp only [exec, execXor, formatAResult, conclude_completed _ _ _ h]

theorem exec_div_running (rd ra rb : RegIx) (f : Bool) (imm : BitVec 18) {s : State} (h : s.halted = false)
    (hb : operandB rb f imm s ≠ 0#32) :
    exec (.div rd ra rb f imm) s = .next ((s.writeReg rd ((s.reg ra).udiv (operandB rb f imm s))).withPcWe false) := by
  simp only [exec, execDiv, divisionResult, if_neg hb, formatAResult, conclude_completed _ _ _ h]

theorem exec_div_fault (rd ra rb : RegIx) (f : Bool) (imm : BitVec 18) {s : State} (h : s.halted = false)
    (hb : operandB rb f imm s = 0#32) :
    exec (.div rd ra rb f imm) s = .next (s.enterFault (.divideByZero 8#4) (encode (.div rd ra rb f imm))) := by
  simp only [exec, execDiv, divisionResult, if_pos hb, conclude_fatal _ _ h]

theorem exec_mod_running (rd ra rb : RegIx) (f : Bool) (imm : BitVec 18) {s : State} (h : s.halted = false)
    (hb : operandB rb f imm s ≠ 0#32) :
    exec (.mod rd ra rb f imm) s = .next ((s.writeReg rd ((s.reg ra).umod (operandB rb f imm s))).withPcWe false) := by
  simp only [exec, execMod, divisionResult, if_neg hb, formatAResult, conclude_completed _ _ _ h]

theorem exec_mod_fault (rd ra rb : RegIx) (f : Bool) (imm : BitVec 18) {s : State} (h : s.halted = false)
    (hb : operandB rb f imm s = 0#32) :
    exec (.mod rd ra rb f imm) s = .next (s.enterFault (.divideByZero 9#4) (encode (.mod rd ra rb f imm))) := by
  simp only [exec, execMod, divisionResult, if_pos hb, conclude_fatal _ _ h]

/-! ### SET, SETU, BSR, BSL, the illegal opcode -/

theorem exec_set_running (rd : RegIx) (sx : Bool) (imm : BitVec 24) {s : State} (h : s.halted = false) :
    exec (.set rd sx imm) s = .next ((s.writeReg rd (setValue sx imm)).withPcWe false) := by
  simp only [exec, execSet, conclude_completed _ _ _ h]

theorem exec_setu_running (rd : RegIx) (imm : BitVec 7) (ign : BitVec 18) {s : State} (h : s.halted = false) :
    exec (.setu rd imm ign) s = .next ((s.writeReg rd (setuValue (s.reg rd) imm)).withPcWe false) := by
  simp only [exec, execSetu, conclude_completed _ _ _ h]

theorem exec_bsr_running (rd rs : RegIx) (k : BitVec 5) (rot : Bool) (ign : BitVec 16) {s : State} (h : s.halted = false) :
    exec (.bsr rd rs k rot ign) s = .next ((s.writeReg rd (shiftRightValue (s.reg rs) k rot)).withPcWe false) := by
  simp only [exec, execBsr, conclude_completed _ _ _ h]

theorem exec_bsl_running (rd rs : RegIx) (k : BitVec 5) (rot : Bool) (ign : BitVec 16) {s : State} (h : s.halted = false) :
    exec (.bsl rd rs k rot ign) s = .next ((s.writeReg rd (shiftLeftValue (s.reg rs) k rot)).withPcWe false) := by
  simp only [exec, execBsl, conclude_completed _ _ _ h]

theorem exec_illegal_fault (rest : BitVec 28) {s : State} (h : s.halted = false) :
    exec (.illegal rest) s = .next (s.enterFault (.invalidOpcode 15#4) (encode (.illegal rest))) := by
  simp only [exec, execIllegal, conclude_fatal _ _ h]

/-! ### JMP -/

theorem exec_jmp_skipped (f : Bool) (b : RegIx) (c : Bool) (cr : RegIx) (o : BitVec 20) {s : State} (h : s.halted = false)
    (hs : jumpSkipped c cr s = true) : exec (.jmp f b c cr o) s = .next (s.withPcWe false) := by
  simp only [exec, execJmp, if_pos hs, conclude_completed _ _ _ h]

theorem exec_jmp_taken (f : Bool) (b : RegIx) (c : Bool) (cr : RegIx) (o : BitVec 20) {s : State} (h : s.halted = false)
    (hs : jumpSkipped c cr s = false) {off : Word} (ho : resolveOffset f o s = .ok off) :
    exec (.jmp f b c cr o) s = .next ((s.writePc (s.reg b + off)).withPcWe true) := by
  simp only [exec, execJmp, hs, Bool.false_eq_true, if_false, ho, conclude_completed _ _ _ h]

theorem exec_jmp_fault (f : Bool) (b : RegIx) (c : Bool) (cr : RegIx) (o : BitVec 20) {s : State} (h : s.halted = false)
    (hs : jumpSkipped c cr s = false) {e : FatalFault} (ho : resolveOffset f o s = .error e) :
    exec (.jmp f b c cr o) s = .next (s.enterFault e (encode (.jmp f b c cr o))) := by
  simp only [exec, execJmp, hs, Bool.false_eq_true, if_false, ho, conclude_fatal _ _ h]

/-! ### LD and PUT -/

theorem exec_ld_running {ws : BitVec 2} {f : Bool} (r : RegIx) {bf : RegIx} {o : BitVec 19} {s : State}
    (h : s.halted = false) {a : Access} (ha : resolveAccess ws f bf o s = .ok a) :
    exec (.ld ws f r bf o) s = .next ((s.writeReg r (s.mem.read a.ea a.n)).withPcWe false) := by
  simp only [exec, execLd, ha, conclude_completed _ _ _ h]

theorem exec_ld_fault {ws : BitVec 2} {f : Bool} (r : RegIx) {bf : RegIx} {o : BitVec 19} {s : State}
    (h : s.halted = false) {e : FatalFault} (ha : resolveAccess ws f bf o s = .error e) :
    exec (.ld ws f r bf o) s = .next (s.enterFault e (encode (.ld ws f r bf o))) := by
  simp only [exec, execLd, ha, conclude_fatal _ _ h]

theorem exec_put_running {ws : BitVec 2} {f : Bool} (r : RegIx) {bf : RegIx} {o : BitVec 19} {s : State}
    (h : s.halted = false) {a : Access} (ha : resolveAccess ws f bf o s = .ok a) :
    exec (.put ws f r bf o) s = .next ((s.store a.ea a.n (s.reg r)).withPcWe false) := by
  simp only [exec, execPut, ha, conclude_completed _ _ _ h]

theorem exec_put_fault {ws : BitVec 2} {f : Bool} (r : RegIx) {bf : RegIx} {o : BitVec 19} {s : State}
    (h : s.halted = false) {e : FatalFault} (ha : resolveAccess ws f bf o s = .error e) :
    exec (.put ws f r bf o) s = .next (s.enterFault e (encode (.put ws f r bf o))) := by
  simp only [exec, execPut, ha, conclude_fatal _ _ h]

end Sys2Proof.Machine
end

