-- ==== Sys2Proof/Laws/Memory.lean ====
section
/-! SUPPORT. The laws of `Mem` (spec/20_memory.md R54, R60): read after write, every other byte unchanged, and the canonical
form kept by every operation. -/

namespace Sys2Proof.Machine

@[simp] theorem Memory.readByte_nil (a : Nat) : Memory.readByte [] a = absentByte := rfl

@[simp] theorem Memory.readByte_writeByte_same (m : Memory) (a : Nat) (b : Byte) :
    Memory.readByte (Memory.writeByte m a b) a = b := by
  unfold Memory.readByte Memory.writeByte
  split
  · rename_i h; rw [cellLookup_erase_same, h]; rfl
  · rw [cellLookup_put_same]; rfl

theorem Memory.readByte_writeByte_other (m : Memory) {a a' : Nat} (b : Byte) (h : a' ≠ a) :
    Memory.readByte (Memory.writeByte m a b) a' = Memory.readByte m a' := by
  unfold Memory.readByte Memory.writeByte
  split
  · rw [cellLookup_erase_other _ h]
  · rw [cellLookup_put_other _ _ h]

theorem Memory.readByte_writeByte (m : Memory) (a a' : Nat) (b : Byte) :
    Memory.readByte (Memory.writeByte m a b) a' = if a' = a then b else Memory.readByte m a' := by
  by_cases h : a' = a
  · subst h; simp
  · simp [h, Memory.readByte_writeByte_other]

/-- A store leaves every byte outside it unchanged. -/
theorem Memory.readByte_write_outside (m : Memory) (ea : Nat) {n : Nat} (v : Word) {a : Nat} (h : a < ea ∨ ea + n ≤ a) :
    Memory.readByte (Memory.write m ea n v) a = Memory.readByte m a := by
  induction n generalizing v with
  | zero => rfl
  | succ n ih => rw [Memory.write, Memory.readByte_writeByte_other _ _ (by omega), ih _ (by omega)]

/-- The bytes of a store do not depend on what memory held. -/
theorem Memory.readByte_write_inside (m m' : Memory) (ea : Nat) {n : Nat} (v : Word) {a : Nat} (hl : ea ≤ a)
    (hu : a < ea + n) : Memory.readByte (Memory.write m ea n v) a = Memory.readByte (Memory.write m' ea n v) a := by
  induction n generalizing v with
  | zero => omega
  | succ n ih =>
    rw [Memory.write, Memory.write, Memory.readByte_writeByte, Memory.readByte_writeByte]
    by_cases h : a = ea + n
    · rw [if_pos h, if_pos h]
    · rw [if_neg h, if_neg h]
      exact ih _ (by omega)

/-- Two memories that read alike give the same bytes. -/
theorem Memory.bytesValue_congr {m m' : Memory} (ea n : Nat) (h : ∀ a, m'.readByte a = m.readByte a) :
    m'.bytesValue ea n = m.bytesValue ea n := by
  induction n with
  | zero => rfl
  | succ n ih => rw [Memory.bytesValue, Memory.bytesValue, ih, h]

/-- The value of `n` bytes is below `2^(8n)`. -/
theorem Memory.bytesValue_lt (m : Memory) (ea n : Nat) : m.bytesValue ea n < 2 ^ (8 * n) := by
  induction n with
  | zero => simp [Memory.bytesValue]
  | succ n ih =>
    have hb := (m.readByte (ea + n)).isLt
    have hp : 2 ^ (8 * (n + 1)) = 2 ^ (8 * n) * 256 := by rw [Nat.mul_add, Nat.pow_add]
    rw [Memory.bytesValue, hp]
    omega

/-- The empty memory of the reset state is canonical. -/
theorem Memory.wf_nil : Memory.wf [] := by simp [Memory.wf, CellsRising]

theorem Memory.wf_writeByte {m : Memory} (h : m.wf) {a : Nat} (ha : a < memSize) (b : Byte) :
    Memory.wf (Memory.writeByte m a b) := by
  obtain ⟨hr, hm⟩ := h
  unfold Memory.writeByte
  split
  · exact ⟨cellErase_rising hr a, fun c hc => hm c (mem_cellErase.1 hc).1⟩
  · rename_i hb
    refine ⟨cellPut_rising hr a b, fun c hc => ?_⟩
    rcases mem_cellPut.1 hc with rfl | ⟨hc, -⟩
    · exact ⟨ha, hb⟩
    · exact hm c hc

/-- An admitted store keeps the canonical form. -/
theorem Memory.wf_write {m : Memory} (h : m.wf) {ea n : Nat} (ha : ea + n ≤ memSize) (v : Word) :
    Memory.wf (Memory.write m ea n v) := by
  induction n generalizing v with
  | zero => exact h
  | succ n ih => exact Memory.wf_writeByte (ih (by omega) _) (by omega) _

/-- Canonical memories that read alike at every address are the same list. -/
theorem Memory.ext_of_readByte {m m' : Memory} (h : m.wf) (h' : m'.wf) (e : ∀ a, m.readByte a = m'.readByte a) :
    m = m' := by
  induction m generalizing m' with
  | nil =>
    cases m' with
    | nil => rfl
    | cons c rest =>
      obtain ⟨k, v⟩ := c
      have := e k
      simp [Memory.readByte, cellLookup] at this
      exact absurd this.symm (h'.2 (k, v) (by simp)).2
  | cons c rest ih =>
    obtain ⟨k, v⟩ := c
    have hv : v ≠ absentByte := (h.2 (k, v) (by simp)).2
    obtain ⟨hk, hr⟩ := List.pairwise_cons.1 h.1
    cases m' with
    | nil =>
      have := e k
      simp [Memory.readByte, cellLookup] at this
      exact absurd this hv
    | cons c' rest' =>
      obtain ⟨k', v'⟩ := c'
      have hv' : v' ≠ absentByte := (h'.2 (k', v') (by simp)).2
      obtain ⟨hk', hr'⟩ := List.pairwise_cons.1 h'.1
      have below : ∀ {l : Memory} {a : Nat}, (∀ c ∈ l, a < c.1) → Memory.readByte l a = absentByte := by
        intro l a hl
        induction l with
        | nil => rfl
        | cons d l ihl =>
          have h1 := hl d (by simp)
          have h2 := ihl fun c hc => hl c (by simp [hc])
          simp only [Memory.readByte, cellLookup]
          rw [if_neg (by omega)]
          exact h2
      have hkk : k = k' := by
        rcases Nat.lt_trichotomy k k' with hlt | heq | hgt
        · exfalso
          have h1 := e k
          rw [below (l := (k', v') :: rest') (a := k)] at h1
          · exact hv (by simpa [Memory.readByte, cellLookup] using h1)
          · intro c hc
            rcases List.mem_cons.1 hc with rfl | hc
            · exact hlt
            · exact hlt.trans (hk' c hc)
        · exact heq
        · exfalso
          have h1 := e k'
          rw [below (l := (k, v) :: rest) (a := k')] at h1
          · exact hv' (by simpa [Memory.readByte, cellLookup] using h1.symm)
          · intro c hc
            rcases List.mem_cons.1 hc with rfl | hc
            · exact hgt
            · exact hgt.trans (hk c hc)
      subst hkk
      have hvv : v = v' := by simpa [Memory.readByte, cellLookup] using e k
      subst hvv
      have htail : rest = rest' := by
        refine ih ⟨hr, fun c hc => h.2 c (by simp [hc])⟩ ⟨hr', fun c hc => h'.2 c (by simp [hc])⟩ fun a => ?_
        by_cases ha : a = k
        · subst ha
          rw [below hk, below hk']
        · simpa [Memory.readByte, cellLookup, ha] using e a
      rw [htail]

end Sys2Proof.Machine
end

