-- ==== Sys2Proof/Laws/PerInstr.lean ====
section
/-! SUPPORT. Statements made per instruction: the opcode field of an instruction's word is its opcode (spec/30_encoding.md R84,
R100, R111). -/

namespace Sys2Proof.Laws.OpcodeField

open Sys2Proof

/-- R84, R111: the four low bits of an instruction's word are its opcode. -/
def Statement (i : Instr) : Prop := (encode i).toNat % 16 = i.opcode.toNat

theorem jmp (f : Bool) (b : RegIx) (c : Bool) (cr : RegIx) (o : BitVec 20) : Statement (.jmp f b c cr o) := by
  simp only [Statement, encode, encodeJ_toNat, Instr.opcode]
  norm_num
  omega

theorem ld (ws : BitVec 2) (f : Bool) (r : RegIx) (bf : RegIx) (o : BitVec 19) : Statement (.ld ws f r bf o) := by
  simp only [Statement, encode, encodeM_toNat, Instr.opcode]
  norm_num
  omega

theorem put (ws : BitVec 2) (f : Bool) (r : RegIx) (bf : RegIx) (o : BitVec 19) : Statement (.put ws f r bf o) := by
  simp only [Statement, encode, encodeM_toNat, Instr.opcode]
  norm_num
  omega

theorem set (rd : RegIx) (sx : Bool) (imm : BitVec 24) : Statement (.set rd sx imm) := by
  simp only [Statement, encode, encodeS_toNat, Instr.opcode]
  norm_num
  omega

theorem setu (rd : RegIx) (imm : BitVec 7) (ign : BitVec 18) : Statement (.setu rd imm ign) := by
  simp only [Statement, encode, encodeU_toNat, Instr.opcode]
  norm_num
  omega

theorem add (rd : RegIx) (ra : RegIx) (rb : RegIx) (f : Bool) (imm : BitVec 18) : Statement (.add rd ra rb f imm) := by
  simp only [Statement, encode, encodeA_toNat, Instr.opcode]
  norm_num
  omega

theorem sub (rd : RegIx) (ra : RegIx) (rb : RegIx) (f : Bool) (imm : BitVec 18) : Statement (.sub rd ra rb f imm) := by
  simp only [Statement, encode, encodeA_toNat, Instr.opcode]
  norm_num
  omega

theorem mul (rd : RegIx) (ra : RegIx) (rb : RegIx) (f : Bool) (imm : BitVec 18) : Statement (.mul rd ra rb f imm) := by
  simp only [Statement, encode, encodeA_toNat, Instr.opcode]
  norm_num
  omega

theorem div (rd : RegIx) (ra : RegIx) (rb : RegIx) (f : Bool) (imm : BitVec 18) : Statement (.div rd ra rb f imm) := by
  simp only [Statement, encode, encodeA_toNat, Instr.opcode]
  norm_num
  omega

theorem mod (rd : RegIx) (ra : RegIx) (rb : RegIx) (f : Bool) (imm : BitVec 18) : Statement (.mod rd ra rb f imm) := by
  simp only [Statement, encode, encodeA_toNat, Instr.opcode]
  norm_num
  omega

theorem and (rd : RegIx) (ra : RegIx) (rb : RegIx) (f : Bool) (imm : BitVec 18) : Statement (.and rd ra rb f imm) := by
  simp only [Statement, encode, encodeA_toNat, Instr.opcode]
  norm_num
  omega

theorem or (rd : RegIx) (ra : RegIx) (rb : RegIx) (f : Bool) (imm : BitVec 18) : Statement (.or rd ra rb f imm) := by
  simp only [Statement, encode, encodeA_toNat, Instr.opcode]
  norm_num
  omega

theorem xor (rd : RegIx) (ra : RegIx) (rb : RegIx) (f : Bool) (imm : BitVec 18) : Statement (.xor rd ra rb f imm) := by
  simp only [Statement, encode, encodeA_toNat, Instr.opcode]
  norm_num
  omega

theorem bsr (rd : RegIx) (rs : RegIx) (k : BitVec 5) (rot : Bool) (ign : BitVec 16) : Statement (.bsr rd rs k rot ign) := by
  simp only [Statement, encode, encodeH_toNat, Instr.opcode]
  norm_num
  omega

theorem bsl (rd : RegIx) (rs : RegIx) (k : BitVec 5) (rot : Bool) (ign : BitVec 16) : Statement (.bsl rd rs k rot ign) := by
  simp only [Statement, encode, encodeH_toNat, Instr.opcode]
  norm_num
  omega

theorem illegal (rest : BitVec 28) : Statement (.illegal rest) := by
  have h0 := place_zero_toNat 15#4
  have h := or_place_toNat (place 15#4 0) rest 4 (by omega) (by rw [h0]; decide)
  simp only [Statement, encode, h, h0, Instr.opcode]
  norm_num

end Sys2Proof.Laws.OpcodeField
end

