-- ==== Sys2Proof/Laws/Step.lean ====
section
/-! SUPPORT. What a step can do, said once (spec/70_reset_and_hazards.md R239), and that the instruction store's one operation
keeps its canonical form. -/

namespace Sys2Proof.Machine

/-- R10: every instruction has a next state, in every state: it is `conclude` of its own word and result. -/
theorem exec_concludes (i : Instr) (s : State) : ∃ r, exec i s = conclude (encode i) r s := by
  cases i <;>
    simp only [exec, execJmp, execLd, execPut, execSet, execSetu, execAdd, execSub, execMul, execDiv, execMod, execAnd,
      execOr, execXor, execBsr, execBsl, execIllegal] <;>
    exact ⟨_, rfl⟩

/-- R238: after an instruction the host advances the PC of a running CORE that did not write it, and changes nothing else. -/
theorem State.sequence_cases (t : State) :
    ((t.pcWe = true ∨ t.halted = true) ∧ t.sequence = t) ∨
    (t.pcWe = false ∧ t.halted = false ∧ t.sequence = t.writePc (t.pc + t.params.pcStep)) := by
  cases hp : t.pcWe with
  | true => exact .inl ⟨.inl rfl, by simp [State.sequence, hp]⟩
  | false =>
    cases hh : t.halted with
    | true => exact .inl ⟨.inr rfl, by simp [State.sequence, State.advance, hp, hh]⟩
    | false => exact .inr ⟨rfl, rfl, by simp [State.sequence, State.advance, State.writePc, hp, hh]⟩

/-- A step that has a next state ran the instruction at the PC of a running machine, and then the host's part. -/
theorem step_cases {s t : State} (h : step s = .next t) :
    s.halted = false ∧ ∃ w u, s.fetchWord = some w ∧ exec (decode w) s = .next u ∧ t = u.sequence := by
  unfold step at h
  split at h
  · cases h
  · rename_i hs
    split at h
    · cases h
    · rename_i w hw
      cases hx : exec (decode w) s with
      | next u =>
        rw [hx] at h
        simp only [hostSequence, Host.Outcome.next.injEq] at h
        exact ⟨by simpa using hs, w, u, hw, hx, h.symm⟩
      | fault r => rw [hx] at h; simp [hostSequence] at h
      | refused r => rw [hx] at h; simp [hostSequence] at h

/-- Placing a word at the PC keeps the instruction store's canonical form. -/
theorem State.wf_placeAtPc {s : State} (h : s.imem.wf) (w : Word) : (s.placeAtPc w).imem.wf := by
  refine ⟨cellPut_rising h.1 _ _, fun c hc => ?_⟩
  rcases mem_cellPut.1 hc with rfl | ⟨hc, -⟩
  · exact s.pc.isLt
  · exact h.2 c hc

end Sys2Proof.Machine
end

