-- ==== Sys2Proof/Tests/Slice0.lean ====
section
/-! SUPPORT. Tests of the model's author. Every word and every expected result is taken from spec/95_test_vectors.md (the
vector's id stands beside it) or worked out by hand from the rule named. After them, for every obligation with hypotheses, a
witness that meets them. -/

namespace Sys2Proof.Tests

open Sys2Proof Sys2Proof.Machine Sys2Proof.Spec

/-! ### WellFormed refuses the ill-formed (R101, R102) -/

theorem test_wf_refuses_opcode_15 : (Instr.illegal 0).wf = false := by decide
theorem test_wf_refuses_ld_selector_3 : (Instr.ld 3 true 1 0 0).wf = false := by decide
theorem test_wf_refuses_put_selector_3 : (Instr.put 3 true 1 0 0).wf = false := by decide
theorem test_wf_takes_the_other_selectors :
    (Instr.ld 2 false 1 0 8).wf = true ∧ (Instr.put 0 true 1 7 0x7FFFF).wf = true := by decide

/-! ### Decoding: a word of every constructor, written out from R85 to R90 -/

/-- J3; J8 in register-offset mode with the offset field 8. -/
theorem test_decode_jmp : decode 0x00005730#32 = .jmp true 1 true 3 5 ∧ decode 0x00008300#32 = .jmp false 0 true 1 8 := by
  decide
/-- LD5, LD14. -/
theorem test_decode_ld : decode 0x000028A1#32 = .ld 2 false 1 2 1 ∧ decode 0xFFFFFCE1#32 = .ld 2 true 1 7 0x7FFFF := by decide
/-- ST4, ST8. -/
theorem test_decode_put : decode 0x000024A2#32 = .put 2 false 1 1 1 ∧ decode 0x00007D12#32 = .put 1 false 2 7 3 := by decide
/-- SET2, SET5. -/
theorem test_decode_set : decode 0x123456A3#32 = .set 2 true 0x123456 ∧ decode 0x000000F3#32 = .set 7 true 0 := by decide
/-- SETU4. -/
theorem test_decode_setu : decode 0xFFFFEAA4#32 = .setu 2 0x55 0x3FFFF := by decide
/-- ADD9, ADD10. -/
theorem test_decode_add : decode 0x0000FCB5#32 = .add 3 1 7 true 3 ∧ decode 0xFFFFC8B5#32 = .add 3 1 2 false 0x3FFFF := by
  decide
/-- SUB5. -/
theorem test_decode_sub : decode 0xFFFFE0B6#32 = .sub 3 1 0 true 0x3FFFF := by decide
/-- MUL6. -/
theorem test_decode_mul : decode 0x000160B7#32 = .mul 3 1 0 true 5 := by decide
/-- DIV10. -/
theorem test_decode_div : decode 0x0001E0B8#32 = .div 3 1 0 true 7 := by decide
/-- MOD9. -/
theorem test_decode_mod : decode 0x0001E0B9#32 = .mod 3 1 0 true 7 := by decide
/-- AND3. -/
theorem test_decode_and : decode 0x003FE0BA#32 = .and 3 1 0 true 0xFF := by decide
/-- OR2. -/
theorem test_decode_or : decode 0xFFFFE0BB#32 = .or 3 1 0 true 0x3FFFF := by decide
/-- XOR1, XOR4. -/
theorem test_decode_xor : decode 0x000008BC#32 = .xor 3 1 2 false 0 ∧ decode 0x0000049C#32 = .xor 1 1 1 false 0 := by decide
/-- BSR8. -/
theorem test_decode_bsr : decode 0x000090BD#32 = .bsr 3 1 4 true 0 := by decide
/-- BSL11. -/
theorem test_decode_bsl : decode 0xFFFF10BE#32 = .bsl 3 1 4 false 0xFFFF := by decide
/-- ILL3. -/
theorem test_decode_illegal : decode 0x1234567F#32 = .illegal 0x1234567 := by decide
/-- R104: the all-zero word is `JMP r0, r0` (J10), not a no-op. -/
theorem test_decode_zero_word : decode 0#32 = .jmp false 0 false 0 0 := by decide
/-- The decoder of table words masks what stands above `nbits`, and refuses more than one word. -/
theorem test_decode_table_word :
    decodeTableWord 4 0xFF3 = some (.set 0 false 0) ∧ decodeTableWord 32 0x0000E005 = some (.add 0 0 0 true 3) ∧
    decodeTableWord 40 3 = none := by decide

/-- R110 against 95_test_vectors.md: `JMP r1, #5, skip r3` (J3), `LD.w r1, [2+r1]` (LD5), `PUT.b r1, [0+#0x20]` (ST1),
`SET r2, #0x123456, s` (SET2), `SETU r2, #0x12` (SETU2), `ADD r3, r1, #0x3` (ADD5), `DIV r3, r1, r2` (DIV1),
`BSR r3, r1, #4, rot` (BSR8), `BSL r3, r1, #31` (BSL5). -/
theorem test_assemble :
    encode (Asm.jmp 1 (.imm 5) (some 3)).assemble = 0x00005730#32 ∧
    encode (Asm.ld .w 1 2 (.reg 1)).assemble = 0x000028A1#32 ∧
    encode (Asm.put .b 1 0 (.imm 0x20)).assemble = 0x000400C2#32 ∧
    encode (Asm.set 2 0x123456 true).assemble = 0x123456A3#32 ∧
    encode (Asm.setu 2 0x12).assemble = 0x00000924#32 ∧
    encode (Asm.formatA .add 3 1 (.imm 3)).assemble = 0x0000E0B5#32 ∧
    encode (Asm.formatA .div 3 1 (.reg 2)).assemble = 0x000008B8#32 ∧
    encode (Asm.bsr 3 1 4 true).assemble = 0x000090BD#32 ∧
    encode (Asm.bsl 3 1 31 false).assemble = 0x00007CBE#32 := by decide

/-! ### One instruction -/

/-- The launch state of a vector: PC 7, the listed registers, the bytes from an address on; all else 0. -/
def launched (regs : List (RegIx × Word)) (at_ : Nat) (bytes : List Byte) : State :=
  let s := regs.foldl (fun s e => s.writeReg e.1 e.2) (State.reset.writePc 7#32)
  { s with mem := (bytes.zipIdx at_).foldl (fun m e => m.writeByte e.2 e.1) s.mem }

/-- The launch state of a vector that lists no memory. -/
def regsOnly (regs : List (RegIx × Word)) : State := launched regs 0 []

/-- What `look` sees after one word is presented. -/
def after {α : Type} (w : Word) (s : State) (look : State → α) : Option α :=
  match exec (decode w) s with
  | .next t => some (look t)
  | .fault _ => none
  | .refused _ => none

/-- The latch, as the vectors list it. -/
def latch (t : State) : Bool × BitVec 3 × FaultInfo := (t.halted, t.faultCode, t.faultInfo)

/-- The PC and `pc_we`. -/
def pcs (t : State) : Word × Bool := (t.pc, t.pcWe)

/-- The bytes at four addresses. -/
def bytesAt (a : Nat) (t : State) : List Byte := [0, 1, 2, 3].map (fun k => t.mem.readByte (a + k))

/-- J2: the sum wraps. J11: the target is the old PC, and `pc_we = 1` all the same. -/
theorem test_jmp_taken :
    after 0x00002020#32 (regsOnly [(1, 0x100#32), (2, 0xFFFFFFFC#32)]) pcs = some (0xFC#32, true) ∧
    after 0x00000050#32 (regsOnly [(2, 7#32)]) pcs = some (7#32, true) := by decide
/-- J7: skipped before the offset is looked at. J8: not skipped, no register 8. J4z: the other sense of the skip. -/
theorem test_jmp_skip :
    after 0x00008300#32 (regsOnly [(1, 1#32)]) pcs = some (7#32, false) ∧
    after 0x00008300#32 (regsOnly []) latch = some (true, 4#3, .report (.regIndexOutOfRange 8) 0x00008300#32) ∧
    after 0x00005730#32 { regsOnly [(1, 0x20#32), (3, 9#32)] with params := ⟨.zero, .field, 1#32⟩ } pcs
      = some (0x25#32, true) := by decide

/-- LD6: the base field 5 is the number 5, not x5. LD4: an odd address. -/
theorem test_ld_value :
    after 0x000016E1#32 (launched [(5, 0x10#32)] 5 [1, 2, 3, 4]) (·.reg 5) = some 0x01020304#32 ∧
    after 0x0001CCD1#32 (launched [] 0x10 [0xDE, 0xAD, 0xBE, 0xEF]) (·.reg 1) = some 0x0000ADBE#32 := by decide
/-- LD10, LD9, LD13, LD15: the end of memory, the unreduced address, and the order of two faults. -/
theorem test_ld_bounds :
    after 0x000040A1#32 (launched [(2, 0xFFFFC#32)] 0xFFFFC [1, 2, 3, 4]) (·.reg 1) = some 0x01020304#32 ∧
    after 0x000040A1#32 (regsOnly [(2, 0xFFFFD#32)]) latch = some (true, 5#3, .report (.memOutOfBounds 1048573 4) 0x000040A1#32) ∧
    after 0x00005C81#32 (regsOnly [(2, 0xFFFFFFFF#32)]) latch =
      some (true, 5#3, .report (.memOutOfBounds 4294967302 1) 0x00005C81#32) ∧
    after 0x000100B1#32 (regsOnly []) latch = some (true, 2#3, .report (.invalidWidthSelector 3) 0x000100B1#32) := by decide

/-- ST3: the most significant byte at the lowest address. ST2: the low half. -/
theorem test_put_bytes :
    after 0x000400E2#32 (regsOnly [(1, 0x11223344#32)]) (bytesAt 0x20) = some [0x11, 0x22, 0x33, 0x44] ∧
    after 0x000400D2#32 (regsOnly [(1, 0x11223344#32)]) (bytesAt 0x20) = some [0x33, 0x44, 0, 0] := by decide
/-- ST7: the neighbours keep their values. ST5: no byte is written by a store that leaves the memory. -/
theorem test_put_frame :
    after 0x000420C2#32 (launched [(1, 0xAB#32)] 0x20 [0x11, 0x22, 0x33]) (bytesAt 0x20) = some [0x11, 0xAB, 0x33, 0] ∧
    after 0x000040A2#32 (regsOnly [(1, 0x11223344#32), (2, 0xFFFFD#32)]) (·.mem) = some [] := by decide
/-- R31: storing the byte an unlisted address reads as removes the entry. -/
theorem test_put_keeps_memory_canonical :
    after 0x000400C2#32 (launched [] 0x20 [0xAA, 0xBB]) (·.mem) = some [(0x21, 0xBB#8)] := by decide

/-- SET2: the top byte follows the flag, not bit 23. SET4. -/
theorem test_set :
    after 0x123456A3#32 (regsOnly []) (·.reg 2) = some 0xFF123456#32 ∧
    after 0x80000023#32 (regsOnly []) (·.reg 2) = some 0x00800000#32 := by decide
/-- SETU2: bit 31 cleared, the low 24 bits kept. SETU4: the ignored bits. -/
theorem test_setu :
    after 0x00000924#32 (regsOnly [(2, 0xFFFFFFFF#32)]) (·.reg 2) = some 0x12FFFFFF#32 ∧
    after 0xFFFFEAA4#32 (regsOnly [(2, 1#32)]) (·.reg 2) = some 0x55000001#32 := by decide

/-- ADD8: a source that is the destination. ADD10: the ignored immediate. -/
theorem test_add :
    after 0x00000495#32 (regsOnly [(1, 0x80000001#32)]) (·.reg 1) = some 2#32 ∧
    after 0xFFFFC8B5#32 (regsOnly [(1, 5#32), (2, 6#32)]) (·.reg 3) = some 0xB#32 := by decide
/-- SUB1, SUB5. -/
theorem test_sub :
    after 0x000008B6#32 (regsOnly [(2, 1#32)]) (·.reg 3) = some 0xFFFFFFFF#32 ∧
    after 0xFFFFE0B6#32 (regsOnly []) (·.reg 3) = some 0xFFFC0001#32 := by decide
/-- MUL3, MUL5. -/
theorem test_mul :
    after 0x000008B7#32 (regsOnly [(1, 0x12345678#32), (2, 0x9ABCDEF0#32)]) (·.reg 3) = some 0x242D2080#32 ∧
    after 0xFFFFE0B7#32 (regsOnly [(1, 0x4000#32)]) (·.reg 3) = some 0xFFFFC000#32 := by decide
/-- DIV3: unsigned. DIV11: a zero immediate faults. -/
theorem test_div :
    after 0x000008B8#32 (regsOnly [(1, 0xFFFFFFF9#32), (2, 2#32)]) (·.reg 3) = some 0x7FFFFFFC#32 ∧
    after 0x000020B8#32 (regsOnly [(1, 0x64#32)]) latch = some (true, 3#3, .report (.divideByZero 8) 0x000020B8#32) := by decide
/-- MOD3: unsigned. MOD8: a zero register faults. -/
theorem test_mod :
    after 0x000008B9#32 (regsOnly [(1, 0xFFFFFFF9#32), (2, 2#32)]) (·.reg 3) = some 1#32 ∧
    after 0x000008B9#32 (regsOnly [(1, 7#32)]) latch = some (true, 3#3, .report (.divideByZero 9) 0x000008B9#32) := by decide

/-- AND1, AND2. -/
theorem test_and :
    after 0x000008BA#32 (regsOnly [(1, 0xF0F0F0F0#32), (2, 0xFF00FF00#32)]) (·.reg 3) = some 0xF000F000#32 ∧
    after 0xFFFFE0BA#32 (regsOnly [(1, 0xFFFFFFFF#32)]) (·.reg 3) = some 0x0003FFFF#32 := by decide
/-- OR1, OR2. -/
theorem test_or :
    after 0x000008BB#32 (regsOnly [(1, 0xF0F0F0F0#32), (2, 0xFF00FF00#32)]) (·.reg 3) = some 0xFFF0FFF0#32 ∧
    after 0xFFFFE0BB#32 (regsOnly [(1, 0x12340000#32)]) (·.reg 3) = some 0x1237FFFF#32 := by decide
/-- XOR1, XOR2. -/
theorem test_xor :
    after 0x000008BC#32 (regsOnly [(1, 0xF0F0F0F0#32), (2, 0xFF00FF00#32)]) (·.reg 3) = some 0x0FF00FF0#32 ∧
    after 0xFFFFE0BC#32 (regsOnly [(1, 0xFFFFFFFF#32)]) (·.reg 3) = some 0xFFFC0000#32 := by decide

/-- BSR3: zero fill. BSR6: the bits shifted out come back. BSR2: amount 0 with rotate. -/
theorem test_bsr :
    after 0x000004BD#32 (regsOnly [(1, 0x80000001#32)]) (·.reg 3) = some 0x40000000#32 ∧
    after 0x0000FCBD#32 (regsOnly [(1, 0x80000001#32)]) (·.reg 3) = some 3#32 ∧
    after 0x000080BD#32 (regsOnly [(1, 0x80000001#32)]) (·.reg 3) = some 0x80000001#32 := by decide
/-- BSL3, BSL6, BSL2. -/
theorem test_bsl :
    after 0x000004BE#32 (regsOnly [(1, 0x80000001#32)]) (·.reg 3) = some 2#32 ∧
    after 0x0000FCBE#32 (regsOnly [(1, 0x80000001#32)]) (·.reg 3) = some 0xC0000000#32 ∧
    after 0x000080BE#32 (regsOnly [(1, 0x80000001#32)]) (·.reg 3) = some 0x80000001#32 := by decide

/-- ILL2: all ones. -/
theorem test_illegal :
    after 0xFFFFFFFF#32 (regsOnly [(1, 5#32)]) latch = some (true, 1#3, .report (.invalidOpcode 15) 0xFFFFFFFF#32) := by decide
/-- ILL4: a halted CORE executes nothing. -/
theorem test_halted :
    after 0x00000113#32 ((regsOnly [(1, 5#32)]).enterFault (.invalidOpcode 15) 0xF#32) (fun t => (t.reg 1, t.pc, latch t))
      = some (5#32, 7#32, true, 1#3, .report (.invalidOpcode 15) 0xF#32) := by decide
/-- ILL4: reset clears the latch. -/
theorem test_reset_clears_the_latch :
    ((regsOnly [(1, 5#32)]).enterFault (.invalidOpcode 15) 0xF#32).applyReset = State.reset := by decide

/-! ### One step -/

/-- The state a step leads to. -/
def stepped (s : State) : Option State :=
  match step s with
  | .next t => some t
  | .fault _ => none
  | .refused _ => none

/-- P1, first step. P3, the skipped JMP at PC 2. -/
theorem test_step_advances :
    (stepped (State.reset.withFetchWord 32 0x00000503)).map (fun t => (t.reg 0, t.pc)) = some (5#32, 1#32) ∧
    (stepped (((State.reset.writeReg 1 5#32).writePc 2#32).withFetchWord 32 0x00006310)).map (·.pc) = some 3#32 := by decide
/-- J10: a taken JMP is not advanced past. P5, step 3: nor is a fault. -/
theorem test_step_does_not_advance :
    (stepped (State.reset.withFetchWord 32 0)).map (·.pc) = some 0#32 ∧
    (stepped ((State.reset.writePc 2#32).withFetchWord 32 0x000008B8)).map (fun t => (t.pc, t.halted, t.faultCode)) =
      some (2#32, true, 3#3) := by decide
/-- R238: the advance wraps. -/
theorem test_step_wraps :
    (stepped ((State.reset.writePc 0xFFFFFFFF#32).withFetchWord 32 0x00000503)).map (·.pc) = some 0#32 := by decide
/-- R240: the two ends of a run. -/
theorem test_step_stops :
    step State.reset = .fault .endOfRun ∧
    step (State.reset.enterFault (.invalidOpcode 15) 0xF#32) = .fault .halted := ⟨rfl, rfl⟩

/-! ### Witnesses: data that meets the hypotheses of each obligation -/

/-- A running state with a word at the PC, in the invariant. -/
def running : State := (regsOnly [(1, 9#32), (2, 0xFFFFC#32)]).withFetchWord 32 0x00000503

/-- A halted state in the invariant, as DIV by zero leaves it. -/
def stopped : State := (regsOnly []).enterFault (.divideByZero 8) 0x000020B8#32

theorem running_inv : running.Inv where
  memory := by decide
  store := by decide
  pcStep := by decide
  latchClear := fun _ => ⟨rfl, rfl⟩
  latchHolds := fun h => by cases h

theorem stopped_inv : stopped.Inv where
  memory := by decide
  store := by decide
  pcStep := by decide
  latchClear := fun h => by cases h
  latchHolds := fun _ => ⟨rfl, _, _, rfl, rfl, by decide, .inl rfl⟩

/-- The `running` state under the parameters that R7 admits beside the defaults. -/
def runningAlt : State := { running with params := ⟨.zero, .register, 4#32⟩ }

/-- DecodeReadsEveryFieldAtItsPlace: a word of each opcode, its other bits not all equal. -/
theorem witness_DecodeReadsEveryFieldAtItsPlace :
    ∀ n ∈ List.range 16, (BitVec.ofNat 32 (0xA5C3D970 + n)).toNat % 16 = n := by decide

/-- OnlyOpcode15AndWidthSelector3AreIllegal: each side of each clause is met. -/
theorem witness_OnlyOpcode15AndWidthSelector3AreIllegal :
    decodeLegal 0xFFFFFFFF#32 = .error (.invalidOpcode 0xFFFFFFFF#32) ∧
    decodeLegal 0x000000F1#32 = .error (.invalidWidthSelector 0x000000F1#32) ∧
    decodeLegal 0x000000F2#32 = .error (.invalidWidthSelector 0x000000F2#32) ∧
    decodeLegal 0x000000E2#32 = .ok (.put 2 true 1 0 0) ∧ (decode 0x000000E2#32).wf = true := by decide

/-- IgnoredBitsHaveNoEffect: (a) to (e) of R103, each with two different instructions, one of them a faulting one. -/
theorem witness_IgnoredBitsHaveNoEffect :
    (Instr.setu 2 0x55 0).withoutIgnored = (Instr.setu 2 0x55 0x3FFFF).withoutIgnored ∧
    (Instr.bsr 3 1 4 true 0).withoutIgnored = (Instr.bsr 3 1 4 true 0xFFFF).withoutIgnored ∧
    (Instr.jmp true 1 false 0 5).withoutIgnored = (Instr.jmp true 1 false 7 5).withoutIgnored ∧
    (Instr.div 3 1 7 true 0).withoutIgnored = (Instr.div 3 1 0 true 0).withoutIgnored ∧
    (Instr.add 3 1 2 false 0).withoutIgnored = (Instr.add 3 1 2 false 0x3FFFF).withoutIgnored := by decide

/-- The hypothesis `s.halted = false`, alone or first in: EveryInstructionCompletesOrFaults, AdvanceAddsPcStep,
SetReplacesTheRegister, SetuReplacesBits30To24, SetThenSetuBuildsExactlyTheValuesBelow2To31, AddWritesTheSumModulo2To32,
SubWritesTheDifferenceModulo2To32, MulWritesTheProductModulo2To32, AddSubMulWrapInBothReadings, AndCombinesBitByBit,
OrCombinesBitByBit, XorCombinesBitByBit, BsrShiftsOrRotatesRight, BslShiftsOrRotatesLeft, ShiftsAndRotationsUndoEachOther,
Opcode15RaisesInvalidOpcode, NoOpEncodingsChangeNothing. -/
theorem witness_running : running.halted = false ∧ runningAlt.halted = false := by decide

/-- SetThenSetuBuildsExactlyTheValuesBelow2To31: the boundary value. -/
theorem witness_SetThenSetuBuildsExactlyTheValuesBelow2To31 : running.halted = false ∧ (0x7FFFFFFF#32).toNat < 2 ^ 31 := by
  decide

/-- FaultsChangeOnlyTheLatch, EachInstructionRaisesOnlyItsFaults, and the halted clauses of OnlyTheDestinationRegisterIsWritten
and MemoryIsWrittenOnlyByPutAndReadOnlyByLd: an instruction that faults, of each kind of fault. -/
theorem witness_FaultsChangeOnlyTheLatch :
    running.halted = false ∧
    exec (.illegal 0) running = .next (running.enterFault (.invalidOpcode 15) 0xF#32) ∧
    exec (.ld 3 true 1 0 0) running = .next (running.enterFault (.invalidWidthSelector 3) 0xF1#32) ∧
    exec (.div 3 1 0 true 0) running = .next (running.enterFault (.divideByZero 8) 0x20B8#32) ∧
    exec (.jmp false 0 false 0 8) running = .next (running.enterFault (.regIndexOutOfRange 8) 0x8000#32) ∧
    exec (.put 2 false 1 1 2) running = .next (running.enterFault (.memOutOfBounds 1048573 4) 0x44A2#32) :=
  ⟨rfl, rfl, rfl, rfl, rfl, rfl⟩

/-- OnlyTheDestinationRegisterIsWritten: an instruction that completes, and a register that is not its destination. -/
theorem witness_OnlyTheDestinationRegisterIsWritten :
    exec (.add 3 1 0 true 3) running = .next ((running.writeReg 3 12#32).withPcWe false) ∧
    (Instr.add 3 1 0 true 3).dest ≠ some 1 := ⟨rfl, by decide⟩

/-- OnlyTheListedRegistersAreRead: registers that are not read: the destination, one that is neither, and, where a JMP is
skipped, its base. -/
theorem witness_OnlyTheListedRegistersAreRead :
    ¬ (Instr.ld 2 true 1 2 0).readsReg running 1 ∧ ¬ (Instr.ld 2 true 1 2 0).readsReg running 2 ∧
    ¬ (Instr.jmp true 0 true 1 5).readsReg running 0 := by
  refine ⟨?_, ?_, ?_⟩
  · rintro (⟨h, -⟩ | ⟨h, -⟩) <;> cases h
  · rintro (⟨h, -⟩ | ⟨h, -⟩) <;> cases h
  · rintro (⟨-, h⟩ | ⟨h, -⟩)
    · exact absurd h (by decide)
    · exact h ⟨rfl, .inl ⟨rfl, by decide⟩⟩

/-- OnlyATakenJmpWritesThePc: a skipped and a taken JMP. -/
theorem witness_OnlyATakenJmpWritesThePc :
    (skipHolds true 1 running ∧ exec (.jmp true 0 true 1 5) running = .next (running.withPcWe false)) ∧
    (¬ skipHolds true 3 running ∧
      exec (.jmp true 0 true 3 5) running = .next ((running.writePc 5#32).withPcWe true)) := by
  refine ⟨⟨⟨rfl, .inl ⟨rfl, by decide⟩⟩, rfl⟩, ?_, rfl⟩
  rintro ⟨-, ⟨-, h⟩ | ⟨h, -⟩⟩
  · exact h (by decide)
  · cases h

/-- MemoryIsWrittenOnlyByPutAndReadOnlyByLd: an LD and a PUT that complete; the PUT's access, the last four bytes of memory,
also over a memory that holds other bytes there. -/
theorem witness_MemoryIsWrittenOnlyByPutAndReadOnlyByLd :
    exec (.ld 2 false 3 0 2) running = .next ((running.writeReg 3 0#32).withPcWe false) ∧
    resolveAccess 2 false 0 2 running = .ok ⟨1048572, 4⟩ ∧
    exec (.put 2 false 1 0 2) running = .next ((running.store 1048572 4 9#32).withPcWe false) ∧
    exec (.put 2 false 1 0 2) { running with mem := [(1048571, 0xEE#8), (1048573, 0xFF#8)] } =
      .next { running with mem := [(1048571, 0xEE#8), (1048575, 9#8)] } := ⟨rfl, rfl, rfl, rfl⟩

/-- HaltedCoreExecutesNothing, OnlyResetLeavesTheHaltedState. -/
theorem witness_HaltedCoreExecutesNothing :
    stopped.halted = true ∧ (HostRequest.mk false (some 0x113#32) true).rst = false := by decide

/-- SkippedJmpChangesNothing: under both senses of the skip; the offset field names no register. -/
theorem witness_SkippedJmpChangesNothing :
    running.halted = false ∧ skipHolds true 1 running ∧ skipHolds true 0 runningAlt :=
  ⟨by decide, ⟨rfl, .inl ⟨rfl, by decide⟩⟩, ⟨rfl, .inr ⟨rfl, by decide⟩⟩⟩

/-- TakenJmpSetsThePc: without the skip flag, with an offset field of 7, the largest that names a register. -/
theorem witness_TakenJmpSetsThePc :
    running.halted = false ∧ ¬ skipHolds false 0 running ∧ OffsetNamed false (7 : BitVec 20) ∧
    OffsetNamed true (0xFFFFF : BitVec 20) :=
  ⟨by decide, fun h => (by cases h.1), .inr (by decide), .inl rfl⟩

/-- JmpWithNoSuchOffsetRegisterFaults: an offset field of 8, the smallest that names none. -/
theorem witness_JmpWithNoSuchOffsetRegisterFaults :
    running.halted = false ∧ ¬ skipHolds false 0 running ∧ 8 ≤ (8 : BitVec 20).toNat :=
  ⟨by decide, fun h => (by cases h.1), by decide⟩

/-- AccessIsResolvedInTheSpecsOrder, LdAndPutFaultInTheSpecsOrder: a value of each clause, at its boundary: selector 3; an
offset field of 8; an access of 4 bytes at 1,048,573, and at 1,048,572. -/
theorem witness_AccessIsResolvedInTheSpecsOrder :
    running.halted = false ∧ (3 : BitVec 2) = 3#2 ∧
    ((2 : BitVec 2) ≠ 3#2 ∧ ¬ OffsetNamed false (8 : BitVec 19)) ∧
    ((2 : BitVec 2) ≠ 3#2 ∧ OffsetNamed false (2 : BitVec 19) ∧ 1048576 < effectiveAddress false 1 2 running + byteCount 2) ∧
    ((2 : BitVec 2) ≠ 3#2 ∧ OffsetNamed false (2 : BitVec 19) ∧ effectiveAddress false 0 2 running + byteCount 2 ≤ 1048576) := by
  refine ⟨by decide, rfl, ⟨by decide, ?_⟩, ⟨by decide, .inr (by decide), by decide⟩, ⟨by decide, .inr (by decide), by decide⟩⟩
  rintro (h | h)
  · cases h
  · exact absurd h (by decide)

/-- LdLoadsBigEndianZeroExtended, PutStoresTheLowBytesBigEndian, LdAfterPutGivesTheStoredValue: the last bytes of memory, with
each width, and an immediate offset. -/
theorem witness_LdLoadsBigEndianZeroExtended :
    running.halted = false ∧ (∀ ws ∈ [0#2, 1#2, 2#2], ws ≠ 3#2 ∧
      effectiveAddress false 0 2 running + byteCount ws ≤ 1048576 ∧
      effectiveAddress true 7 0x7FFFF running + byteCount ws ≤ 1048576) ∧
    OffsetNamed false (2 : BitVec 19) ∧ OffsetNamed true (0x7FFFF : BitVec 19) :=
  ⟨by decide, by decide, .inr (by decide), .inl rfl⟩

/-- PutWritesOnlyTheBytesOfItsResolvedAccess: under the default and under the alternative of `LDPUT_BASE`. -/
theorem witness_PutWritesOnlyTheBytesOfItsResolvedAccess :
    running.halted = false ∧ resolveAccess 2 false 0 2 running = .ok ⟨1048572, 4⟩ ∧
    resolveAccess 0 true 1 5 runningAlt = .ok ⟨14, 1⟩ := ⟨rfl, rfl, rfl⟩

/-- ImmediateOffsetsStayInMemory. -/
theorem witness_ImmediateOffsetsStayInMemory : running.params.ldPutBase = .field ∧ (2 : BitVec 2) ≠ 3#2 := by decide

/-- DivWritesTheUnsignedQuotient, ModWritesTheUnsignedRemainder, DivAndModReassembleTheDividend: an operand B that is not 0,
from a register and from the immediate. -/
theorem witness_DivWritesTheUnsignedQuotient :
    running.halted = false ∧ operandBValue 1 false 0 running ≠ 0 ∧ operandBValue 0 true 1 running ≠ 0 := by decide

/-- DivAndModByZeroFault: an operand B that is 0, from a register and from the immediate. -/
theorem witness_DivAndModByZeroFault :
    running.halted = false ∧ operandBValue 0 false 5 running = 0 ∧ operandBValue 1 true 0 running = 0 := by decide

/-- StepRunsTheInstructionAtThePc, StepPresentsTheWordAndThenAdvances: the word SET r0, #5; and a taken JMP. -/
theorem witness_StepRunsTheInstructionAtThePc :
    (running.halted = false ∧ running.fetchWord = some 0x00000503#32 ∧
      exec (decode 0x00000503#32) running = .next ((running.writeReg 0 5#32).withPcWe false) ∧
      respond ⟨false, some 0x00000503#32, false⟩ running = .next ((running.writeReg 0 5#32).withPcWe false)) ∧
    respond ⟨false, some 0#32, false⟩ running = .next ((running.writePc 0#32).withPcWe true) :=
  ⟨⟨rfl, rfl, rfl, rfl⟩, rfl⟩

/-- PlacedWordIsTheOneFetched: a whole word, and another address of the store. -/
theorem witness_PlacedWordIsTheOneFetched : 32 ≤ 32 ∧ 8 ≠ running.pc.toNat := by decide

/-- NoStepChangesTheInstructionStore, EveryStepKeepsTheInvariant: a step from a state of the invariant. -/
theorem witness_EveryStepKeepsTheInvariant : running.Inv ∧ ∃ t, step running = .next t :=
  ⟨running_inv, { (running.writeReg 0 5#32).withPcWe false with pc := 8#32 }, rfl⟩

/-- EveryHostRequestKeepsTheInvariant: reset presented to a halted CORE, and a faulting word to a running one. -/
theorem witness_EveryHostRequestKeepsTheInvariant :
    (stopped.Inv ∧ respond ⟨true, some 0#32, true⟩ stopped = .next stopped.applyReset) ∧
    (running.Inv ∧ respond ⟨false, some 0xF#32, false⟩ running = .next (running.enterFault (.invalidOpcode 15) 0xF#32)) :=
  ⟨⟨stopped_inv, rfl⟩, running_inv, rfl⟩

/-- LaunchStatesKeepTheInvariant: the image of the source's scenario S9, its bytes in memory. -/
theorem witness_LaunchStatesKeepTheInvariant :
    running.Inv ∧
    Memory.wf (LaunchImage.mk running.regs 0#32 [(0, 0x87#8), (1, 0x65#8), (2, 0x43#8), (1048575, 0x21#8)]).mem :=
  ⟨running_inv, by decide⟩

end Sys2Proof.Tests
end

/-! ### What an instruction can do to a running CORE -/

namespace Sys2Proof.Machine

/-- R10, said once for every instruction: the next states an instruction can have from a running CORE. `exec_running`
below shows that `exec` always answers one of them. -/
inductive RunningOutcome (s : State) : Instr → State → Prop where
  /-- R23: the destination register is written. -/
  | writesReg {i : Instr} {rd : RegIx} (v : Word) (hd : i.dest = some rd) :
      RunningOutcome s i ((s.writeReg rd v).withPcWe false)
  /-- R135: a PUT whose access is admitted. -/
  | stores {ws : BitVec 2} {f : Bool} {r bf : RegIx} {o : BitVec 19} {a : Access}
      (ha : resolveAccess ws f bf o s = .ok a) :
      RunningOutcome s (.put ws f r bf o) ((s.store a.ea a.n (s.reg r)).withPcWe false)
  /-- R121: a JMP that is taken. -/
  | jumps {f : Bool} {b : RegIx} {c : Bool} {cr : RegIx} {o : BitVec 20} {off : Word}
      (hk : ¬ skipHolds c cr s) (ho : resolveOffset f o s = .ok off) :
      RunningOutcome s (.jmp f b c cr o) ((s.writePc (s.reg b + off)).withPcWe true)
  /-- R121, R122: a JMP that is skipped. -/
  | skips {f : Bool} {b : RegIx} {c : Bool} {cr : RegIx} {o : BitVec 20} (hk : skipHolds c cr s) :
      RunningOutcome s (.jmp f b c cr o) (s.withPcWe false)
  /-- R208, R217: one of the instruction's fatal faults is entered. -/
  | faults {i : Instr} {e : FatalFault} (he : i.canRaise e) :
      RunningOutcome s i (s.enterFault e (encode i))

/-- The model's skip test decides the spec's condition (R121, R122). -/
theorem jumpSkipped_iff_skipHolds (c : Bool) (cr : RegIx) (s : State) :
    jumpSkipped c cr s = true ↔ skipHolds c cr s := by
  cases c with
  | false => simp [skipHolds]
  | true => simp [skipHolds, jumpSkipped_conditional]

/-- R217: an access that does not resolve raises a fault that both LD and PUT can raise. -/
theorem canRaise_of_resolveAccess_error {ws : BitVec 2} {f : Bool} {bf : RegIx} {o : BitVec 19} {s : State}
    {e : FatalFault} (r : RegIx) (h : resolveAccess ws f bf o s = .error e) :
    (Instr.ld ws f r bf o).canRaise e ∧ (Instr.put ws f r bf o).canRaise e := by
  rcases resolveAccess_error h with ⟨-, he⟩ | ⟨-, -, -, he⟩ | ⟨-, off, -, -, he⟩
  · exact ⟨.inl ⟨_, he⟩, .inl ⟨_, he⟩⟩
  · exact ⟨.inr (.inl ⟨_, he⟩), .inr (.inl ⟨_, he⟩)⟩
  · exact ⟨.inr (.inr ⟨_, _, he⟩), .inr (.inr ⟨_, _, he⟩)⟩

/-- R121: a JMP presented to a running CORE is skipped, is taken, or has no offset register. -/
theorem exec_jmp_outcome (f : Bool) (b : RegIx) (c : Bool) (cr : RegIx) (o : BitVec 20) {s : State}
    (h : s.halted = false) :
    ∃ t, exec (.jmp f b c cr o) s = .next t ∧ RunningOutcome s (.jmp f b c cr o) t := by
  cases hs : jumpSkipped c cr s with
  | true => exact ⟨_, exec_jmp_skipped f b c cr o h hs, .skips ((jumpSkipped_iff_skipHolds c cr s).1 hs)⟩
  | false =>
    have hk : ¬ skipHolds c cr s := by simp [← jumpSkipped_iff_skipHolds, hs]
    cases ho : resolveOffset f o s with
    | ok off => exact ⟨_, exec_jmp_taken f b c cr o h hs ho, .jumps hk ho⟩
    | error e =>
      obtain ⟨-, -, he⟩ := resolveOffset_error ho
      exact ⟨_, exec_jmp_fault f b c cr o h hs ho, .faults ⟨_, he⟩⟩

/-- R10: every instruction presented to a running CORE has a next state, and it is one of `RunningOutcome`. -/
theorem exec_running (i : Instr) {s : State} (h : s.halted = false) :
    ∃ t, exec i s = .next t ∧ RunningOutcome s i t := by
  cases i with
  | jmp f b c cr o => exact exec_jmp_outcome f b c cr o h
  | ld ws f r bf o =>
    cases ha : resolveAccess ws f bf o s with
    | ok a => exact ⟨_, exec_ld_running r h ha, .writesReg _ rfl⟩
    | error e => exact ⟨_, exec_ld_fault r h ha, .faults (canRaise_of_resolveAccess_error r ha).1⟩
  | put ws f r bf o =>
    cases ha : resolveAccess ws f bf o s with
    | ok a => exact ⟨_, exec_put_running r h ha, .stores ha⟩
    | error e => exact ⟨_, exec_put_fault r h ha, .faults (canRaise_of_resolveAccess_error r ha).2⟩
  | set rd sx imm => exact ⟨_, exec_set_running rd sx imm h, .writesReg _ rfl⟩
  | setu rd imm ign => exact ⟨_, exec_setu_running rd imm ign h, .writesReg _ rfl⟩
  | add rd ra rb f imm => exact ⟨_, exec_add_running rd ra rb f imm h, .writesReg _ rfl⟩
  | sub rd ra rb f imm => exact ⟨_, exec_sub_running rd ra rb f imm h, .writesReg _ rfl⟩
  | mul rd ra rb f imm => exact ⟨_, exec_mul_running rd ra rb f imm h, .writesReg _ rfl⟩
  | div rd ra rb f imm =>
    by_cases hb : operandB rb f imm s = 0#32
    · exact ⟨_, exec_div_fault rd ra rb f imm h hb, .faults rfl⟩
    · exact ⟨_, exec_div_running rd ra rb f imm h hb, .writesReg _ rfl⟩
  | mod rd ra rb f imm =>
    by_cases hb : operandB rb f imm s = 0#32
    · exact ⟨_, exec_mod_fault rd ra rb f imm h hb, .faults rfl⟩
    · exact ⟨_, exec_mod_running rd ra rb f imm h hb, .writesReg _ rfl⟩
  | and rd ra rb f imm => exact ⟨_, exec_and_running rd ra rb f imm h, .writesReg _ rfl⟩
  | or rd ra rb f imm => exact ⟨_, exec_or_running rd ra rb f imm h, .writesReg _ rfl⟩
  | xor rd ra rb f imm => exact ⟨_, exec_xor_running rd ra rb f imm h, .writesReg _ rfl⟩
  | bsr rd rs k rot ign => exact ⟨_, exec_bsr_running rd rs k rot ign h, .writesReg _ rfl⟩
  | bsl rd rs k rot ign => exact ⟨_, exec_bsl_running rd rs k rot ign h, .writesReg _ rfl⟩
  | illegal rest => exact ⟨_, exec_illegal_fault rest h, .faults rfl⟩

/-- `exec_running` for a next state already at hand. -/
theorem RunningOutcome.of_exec {i : Instr} {s t : State} (h : s.halted = false) (ht : exec i s = .next t) :
    RunningOutcome s i t := by
  obtain ⟨u, hu, hout⟩ := exec_running i h
  cases ht.symm.trans hu
  exact hout

/-- R201, R208: what the model's fault entry does is the spec's fault entry. -/
theorem State.entersFault_enterFault (s : State) (e : FatalFault) (w : Word) :
    EntersFault e e.code w s (s.enterFault e w) :=
  ⟨rfl, rfl, rfl, fun _ => rfl, rfl, rfl, fun _ => rfl, rfl, rfl⟩

/-- R23: a JMP has no destination register. -/
theorem ne_jmp_of_dest {i : Instr} {rd : RegIx} (h : i.dest = some rd) (f : Bool) (b : RegIx) (c : Bool) (cr : RegIx)
    (o : BitVec 20) : i ≠ .jmp f b c cr o := by
  rintro rfl
  cases h

end Sys2Proof.Machine

/-! ### Scope (spec/00_scope.md) -/

namespace Sys2Proof.Proofs

open Sys2Proof Sys2Proof.Machine

/-- Settles O8: the outcomes of a running CORE (`exec_running`), case by case; only a taken JMP sets `pc_we`. -/
theorem everyInstructionCompletesOrFaults : Obligations.EveryInstructionCompletesOrFaults := by
  intro i s hs
  obtain ⟨t, ht, hout⟩ := exec_running i hs
  refine ⟨t, ht, ?_⟩
  cases hout with
  | writesReg v hd =>
    exact .inl ⟨⟨rfl, rfl, rfl⟩, fun _ => rfl, iff_of_false (by simp) (by simp [ne_jmp_of_dest hd])⟩
  | stores ha => exact .inl ⟨⟨rfl, rfl, rfl⟩, fun _ => rfl, iff_of_false (by simp) (by simp)⟩
  | jumps hk ho => exact .inl ⟨⟨rfl, rfl, rfl⟩, by simp, iff_of_true rfl ⟨_, _, _, _, _, rfl, hk⟩⟩
  | skips hk =>
    refine .inl ⟨⟨rfl, rfl, rfl⟩, fun _ => rfl, iff_of_false (by simp) ?_⟩
    rintro ⟨_, _, _, _, _, ⟨⟩, hn⟩
    exact hn hk
  | faults he => exact .inr ⟨_, s.entersFault_enterFault _ _⟩

end Sys2Proof.Proofs


/-! ### What an instruction can do to any CORE, halted or not -/

namespace Sys2Proof.Machine

/-- R209: an instruction presented to a halted CORE changes nothing. -/
theorem exec_halted (i : Instr) {s : State} (h : s.halted = true) : exec i s = .next (s.withPcWe false) := by
  obtain ⟨r, hr⟩ := exec_concludes i s
  rw [hr, conclude_halted _ r h]

/-- R10, R209: a next state is that of a halted CORE, which is left alone, or an outcome of a running one. -/
theorem exec_cases {i : Instr} {s t : State} (h : exec i s = .next t) :
    (s.halted = true ∧ t = s.withPcWe false) ∨ (s.halted = false ∧ RunningOutcome s i t) := by
  cases hs : s.halted with
  | true => cases (exec_halted i hs).symm.trans h; exact .inl ⟨rfl, rfl⟩
  | false => exact .inr ⟨rfl, .of_exec hs h⟩

/-- R208, R209: a CORE that is halted after an instruction was halted before it, or has entered one of its faults. -/
theorem exec_cases_of_halted {i : Instr} {s t : State} (h : exec i s = .next t) (ht : t.halted = true) :
    t = s.withPcWe false ∨ ∃ e, t = s.enterFault e (encode i) := by
  rcases exec_cases h with ⟨-, rfl⟩ | ⟨hs, hout⟩
  · exact .inl rfl
  · cases hout with
    | faults he => exact .inr ⟨_, rfl⟩
    | _ => exact absurd ht (by simp [hs])

/-- R209: no instruction gets a halted CORE running again. -/
theorem running_of_exec {i : Instr} {s t : State} (h : exec i s = .next t) (ht : t.halted = false) :
    s.halted = false := by
  rcases exec_cases h with ⟨hs, rfl⟩ | ⟨hs, -⟩
  · cases hs.symm.trans ht
  · exact hs

/-! ### The frame of an instruction, part by part -/

/-- R23: a register that is not the destination keeps its value. -/
theorem exec_reg_of_ne_dest {i : Instr} {s t : State} (h : exec i s = .next t) {q : RegIx} (hq : i.dest ≠ some q) :
    t.reg q = s.reg q := by
  rcases exec_cases h with ⟨-, rfl⟩ | ⟨-, hout⟩
  · rfl
  · cases hout with
    | writesReg v hd => exact State.reg_writeReg_other s v fun e => hq (e ▸ hd)
    | _ => rfl

/-- R27: an instruction that is not a JMP leaves the PC. -/
theorem exec_pc_of_ne_jmp {i : Instr} {s t : State} (h : exec i s = .next t)
    (hj : ∀ f b c cr o, i ≠ .jmp f b c cr o) : t.pc = s.pc := by
  rcases exec_cases h with ⟨-, rfl⟩ | ⟨-, hout⟩
  · rfl
  · cases hout with
    | jumps _ _ => exact absurd rfl (hj _ _ _ _ _)
    | _ => rfl

/-- R32: an instruction that is not a PUT leaves memory. -/
theorem exec_sameMemory_of_ne_put {i : Instr} {s t : State} (h : exec i s = .next t)
    (hp : ∀ ws f r bf o, i ≠ .put ws f r bf o) : SameMemory s t := by
  rcases exec_cases h with ⟨-, rfl⟩ | ⟨-, hout⟩
  · exact fun _ => rfl
  · cases hout with
    | stores _ => exact absurd rfl (hp _ _ _ _ _)
    | _ => exact fun _ => rfl

/-- R207, R209: a CORE that is halted after an instruction has the registers it had before. -/
theorem exec_sameRegs_of_halted {i : Instr} {s t : State} (h : exec i s = .next t) (ht : t.halted = true) :
    SameRegs s t := by
  rcases exec_cases_of_halted h ht with rfl | ⟨e, rfl⟩ <;> exact fun _ => rfl

/-- R207, R209: a CORE that is halted after an instruction has the memory it had before. -/
theorem exec_sameMemory_of_halted {i : Instr} {s t : State} (h : exec i s = .next t) (ht : t.halted = true) :
    SameMemory s t := by
  rcases exec_cases_of_halted h ht with rfl | ⟨e, rfl⟩ <;> exact fun _ => rfl

/-- R7, R33: no instruction changes the host's store or the parameters. -/
theorem exec_sameHost {i : Instr} {s t : State} (h : exec i s = .next t) : SameHost s t := by
  rcases exec_cases h with ⟨-, rfl⟩ | ⟨-, hout⟩
  · exact ⟨rfl, rfl⟩
  · cases hout <;> exact ⟨rfl, rfl⟩

/-- R36: an instruction that does not leave CORE halted leaves the latch. -/
theorem exec_sameLatch_of_running {i : Instr} {s t : State} (h : exec i s = .next t) (ht : t.halted = false) :
    SameLatch s t := by
  cases RunningOutcome.of_exec (running_of_exec h ht) h with
  | faults _ => cases ht
  | _ => exact ⟨rfl, rfl, rfl⟩

/-! ### An instruction over another memory -/

/-- A state with another memory in its place. -/
def State.withMem (s : State) (m : Memory) : State := { s with mem := m }

@[simp] theorem State.withMem_halted (s : State) (m : Memory) : (s.withMem m).halted = s.halted := rfl
@[simp] theorem operandB_withMem (rb : RegIx) (i : Bool) (imm : BitVec 18) (s : State) (m : Memory) :
    operandB rb i imm (s.withMem m) = operandB rb i imm s := rfl
@[simp] theorem resolveOffset_withMem {n : Nat} (i : Bool) (o : BitVec n) (s : State) (m : Memory) :
    resolveOffset i o (s.withMem m) = resolveOffset i o s := rfl
@[simp] theorem resolveAccess_withMem (ws : BitVec 2) (i : Bool) (bf : RegIx) (o : BitVec 19) (s : State) (m : Memory) :
    resolveAccess ws i bf o (s.withMem m) = resolveAccess ws i bf o s := rfl
@[simp] theorem jumpSkipped_withMem (c : Bool) (cr : RegIx) (s : State) (m : Memory) :
    jumpSkipped c cr (s.withMem m) = jumpSkipped c cr s := rfl

/-- The instruction comes out the same, but for memory, when `m` is in the place of the state's memory. -/
def SameOverMemory (i : Instr) (s : State) (m : Memory) : Prop :=
  ∃ t u, exec i s = .next t ∧ exec i (s.withMem m) = .next u ∧ u.withMem t.mem = t

/-- R121: a JMP does not read memory. -/
theorem sameOverMemory_jmp (f : Bool) (b : RegIx) (c : Bool) (cr : RegIx) (o : BitVec 20) {s : State}
    (h : s.halted = false) (m : Memory) : SameOverMemory (.jmp f b c cr o) s m := by
  have h' := (s.withMem_halted m).trans h
  cases hs : jumpSkipped c cr s with
  | true =>
    have hs' := (jumpSkipped_withMem c cr s m).trans hs
    exact ⟨_, _, exec_jmp_skipped f b c cr o h hs, exec_jmp_skipped f b c cr o h' hs', rfl⟩
  | false =>
    have hs' := (jumpSkipped_withMem c cr s m).trans hs
    cases ho : resolveOffset f o s with
    | ok off =>
      have ho' := (resolveOffset_withMem f o s m).trans ho
      exact ⟨_, _, exec_jmp_taken f b c cr o h hs ho, exec_jmp_taken f b c cr o h' hs' ho', rfl⟩
    | error e =>
      have ho' := (resolveOffset_withMem f o s m).trans ho
      exact ⟨_, _, exec_jmp_fault f b c cr o h hs ho, exec_jmp_fault f b c cr o h' hs' ho', rfl⟩

/-- R135: a PUT does not read memory. -/
theorem sameOverMemory_put (ws : BitVec 2) (f : Bool) (r bf : RegIx) (o : BitVec 19) {s : State}
    (h : s.halted = false) (m : Memory) : SameOverMemory (.put ws f r bf o) s m := by
  have h' := (s.withMem_halted m).trans h
  cases ha : resolveAccess ws f bf o s with
  | ok a =>
    have ha' := (resolveAccess_withMem ws f bf o s m).trans ha
    exact ⟨_, _, exec_put_running r h ha, exec_put_running r h' ha', rfl⟩
  | error e =>
    have ha' := (resolveAccess_withMem ws f bf o s m).trans ha
    exact ⟨_, _, exec_put_fault r h ha, exec_put_fault r h' ha', rfl⟩

/-- R32: no instruction but LD reads memory, on a running CORE. -/
theorem sameOverMemory_running {i : Instr} (hl : ∀ ws f r bf o, i ≠ .ld ws f r bf o) {s : State}
    (h : s.halted = false) (m : Memory) : SameOverMemory i s m := by
  have h' := (s.withMem_halted m).trans h
  cases i with
  | jmp f b c cr o => exact sameOverMemory_jmp f b c cr o h m
  | ld ws f r bf o => exact absurd rfl (hl ws f r bf o)
  | put ws f r bf o => exact sameOverMemory_put ws f r bf o h m
  | set rd sx imm => exact ⟨_, _, exec_set_running rd sx imm h, exec_set_running rd sx imm h', rfl⟩
  | setu rd imm ign => exact ⟨_, _, exec_setu_running rd imm ign h, exec_setu_running rd imm ign h', rfl⟩
  | add rd ra rb f imm => exact ⟨_, _, exec_add_running rd ra rb f imm h, exec_add_running rd ra rb f imm h', rfl⟩
  | sub rd ra rb f imm => exact ⟨_, _, exec_sub_running rd ra rb f imm h, exec_sub_running rd ra rb f imm h', rfl⟩
  | mul rd ra rb f imm => exact ⟨_, _, exec_mul_running rd ra rb f imm h, exec_mul_running rd ra rb f imm h', rfl⟩
  | div rd ra rb f imm =>
    by_cases hb : operandB rb f imm s = 0#32
    · exact ⟨_, _, exec_div_fault rd ra rb f imm h hb, exec_div_fault rd ra rb f imm h' (by simpa using hb), rfl⟩
    · exact ⟨_, _, exec_div_running rd ra rb f imm h hb, exec_div_running rd ra rb f imm h' (by simpa using hb), rfl⟩
  | mod rd ra rb f imm =>
    by_cases hb : operandB rb f imm s = 0#32
    · exact ⟨_, _, exec_mod_fault rd ra rb f imm h hb, exec_mod_fault rd ra rb f imm h' (by simpa using hb), rfl⟩
    · exact ⟨_, _, exec_mod_running rd ra rb f imm h hb, exec_mod_running rd ra rb f imm h' (by simpa using hb), rfl⟩
  | and rd ra rb f imm => exact ⟨_, _, exec_and_running rd ra rb f imm h, exec_and_running rd ra rb f imm h', rfl⟩
  | or rd ra rb f imm => exact ⟨_, _, exec_or_running rd ra rb f imm h, exec_or_running rd ra rb f imm h', rfl⟩
  | xor rd ra rb f imm => exact ⟨_, _, exec_xor_running rd ra rb f imm h, exec_xor_running rd ra rb f imm h', rfl⟩
  | bsr rd rs k rot ign => exact ⟨_, _, exec_bsr_running rd rs k rot ign h, exec_bsr_running rd rs k rot ign h', rfl⟩
  | bsl rd rs k rot ign => exact ⟨_, _, exec_bsl_running rd rs k rot ign h, exec_bsl_running rd rs k rot ign h', rfl⟩
  | illegal rest => exact ⟨_, _, exec_illegal_fault rest h, exec_illegal_fault rest h', rfl⟩

/-- R32, R209: no instruction but LD reads memory, in any state. -/
theorem sameOverMemory {i : Instr} (hl : ∀ ws f r bf o, i ≠ .ld ws f r bf o) (s : State) (m : Memory) :
    SameOverMemory i s m := by
  cases h : s.halted with
  | true => exact ⟨_, _, exec_halted i h, exec_halted i ((s.withMem_halted m).trans h), rfl⟩
  | false => exact sameOverMemory_running hl h m

/-- R54, R135: a PUT that completes stores the same bytes over any memory, and leaves every byte outside its access. -/
theorem exec_put_bytes {ws : BitVec 2} {f : Bool} {r bf : RegIx} {o : BitVec 19} {s t u : State} {m : Memory}
    {a : Access} (ht : exec (.put ws f r bf o) s = .next t) (hu : exec (.put ws f r bf o) (s.withMem m) = .next u)
    (ha : resolveAccess ws f bf o s = .ok a) (h : s.halted = false) :
    (∀ b, a.ea ≤ b → b < a.ea + a.n → u.mem.readByte b = t.mem.readByte b) ∧
    (∀ b, b < a.ea ∨ a.ea + a.n ≤ b → t.mem.readByte b = s.mem.readByte b ∧ u.mem.readByte b = m.readByte b) := by
  cases ht.symm.trans (exec_put_running r h ha)
  have ha' := (resolveAccess_withMem ws f bf o s m).trans ha
  cases hu.symm.trans (exec_put_running r ((s.withMem_halted m).trans h) ha')
  exact ⟨fun b hl hb => Memory.readByte_write_inside m s.mem a.ea _ hl hb,
    fun b hb => ⟨Memory.readByte_write_outside s.mem a.ea _ hb, Memory.readByte_write_outside m a.ea _ hb⟩⟩

end Sys2Proof.Machine

/-! ### State (spec/10_state.md) -/

namespace Sys2Proof.Proofs

open Sys2Proof Sys2Proof.Machine

/-- Settles O11, by the frame of the register file: `exec_reg_of_ne_dest`, and `exec_sameRegs_of_halted` for a fault. -/
theorem onlyTheDestinationRegisterIsWritten : Obligations.OnlyTheDestinationRegisterIsWritten :=
  fun _ _ _ h => ⟨fun _ hq => exec_reg_of_ne_dest h hq, exec_sameRegs_of_halted h⟩

/-- Settles O14: the frame of memory, the run over another memory (`sameOverMemory`, `exec_put_bytes`), and the rest of the
frame of LD and PUT. -/
theorem memoryIsWrittenOnlyByPutAndReadOnlyByLd : Obligations.MemoryIsWrittenOnlyByPutAndReadOnlyByLd := by
  intro i s t h
  refine ⟨exec_sameMemory_of_ne_put h, exec_sameMemory_of_halted h, ?_, fun _ => rfl, ?_⟩
  · intro m hl
    obtain ⟨t', u, ht, hu, hsame⟩ := sameOverMemory hl s m
    cases h.symm.trans ht
    refine ⟨u, hu, hsame, ?_⟩
    rintro ws f r bf o a rfl ha hrun
    exact exec_put_bytes h hu ha (running_of_exec h hrun)
  · intro ws f r bf o hi
    have hj : ∀ f b c cr o, i ≠ .jmp f b c cr o := by rcases hi with rfl | rfl <;> simp
    exact ⟨fun _ hq => exec_reg_of_ne_dest h hq, exec_pc_of_ne_jmp h hj, exec_sameHost h, exec_sameLatch_of_running h⟩

end Sys2Proof.Proofs

/-! ### The bytes of a word in memory -/

namespace Sys2Proof.Machine

open Sys2Proof.Spec

/-- R53: `MemRead` of at most four bytes is their big-endian value, which fits a word. -/
theorem Memory.toNat_read (m : Memory) (ea : Nat) {n : Nat} (hn : n ≤ 4) : (m.read ea n).toNat = m.bytesValue ea n := by
  have hfit : 2 ^ (8 * n) ≤ 2 ^ 32 := Nat.pow_le_pow_right (by decide) (by omega)
  rw [Memory.read, BitVec.toNat_ofNat, Nat.mod_eq_of_lt ((m.bytesValue_lt ea n).trans_le hfit)]

@[simp] theorem Memory.bytesValue_zero (m : Memory) (ea : Nat) : m.bytesValue ea 0 = 0 := rfl

@[simp] theorem Memory.bytesValue_succ (m : Memory) (ea n : Nat) :
    m.bytesValue ea (n + 1) = m.bytesValue ea n * 2 ^ 8 + byteAt m (ea + n) := rfl

/-- R54: the byte of a store at the highest address holds the word's low eight bits. -/
theorem byteAt_write_last (m : Memory) (ea n : Nat) (v : Word) :
    byteAt (m.write ea (n + 1) v) (ea + n) = v.toNat % 2 ^ 8 := by
  rw [byteAt, Memory.write, Memory.readByte_writeByte_same, BitVec.toNat_setWidth]

/-- R54: of the `n` bytes of a store, the one at offset `k` holds the word's bits from `8 * (n - 1 - k)` on. -/
theorem byteAt_write (m : Memory) (ea : Nat) {n k : Nat} (v : Word) (hk : k < n) :
    byteAt (m.write ea n v) (ea + k) = v.toNat / 2 ^ (8 * (n - 1 - k)) % 2 ^ 8 := by
  induction n generalizing v with
  | zero => omega
  | succ n ih =>
    by_cases hlast : k = n
    · simp [hlast, byteAt_write_last]
    · have hexp : 8 * (n + 1 - 1 - k) = 8 + 8 * (n - 1 - k) := by omega
      calc byteAt (m.write ea (n + 1) v) (ea + k)
        _ = byteAt (m.write ea n (v >>> 8)) (ea + k) :=
          congrArg BitVec.toNat (Memory.readByte_writeByte_other _ _ (by omega))
        _ = v.toNat / 2 ^ 8 / 2 ^ (8 * (n - 1 - k)) % 2 ^ 8 := by
          rw [ih _ (by omega), BitVec.toNat_ushiftRight, Nat.shiftRight_eq_div_pow]
        _ = v.toNat / 2 ^ (8 * (n + 1 - 1 - k)) % 2 ^ 8 := by rw [Nat.div_div_eq_div_mul, ← Nat.pow_add, hexp]

end Sys2Proof.Machine

/-! ### Memory (spec/20_memory.md) -/

namespace Sys2Proof.Proofs

open Sys2Proof Sys2Proof.Machine

/-- Settles O23: a read is the bytes' big-endian value (`Memory.toNat_read`), and `n` bytes stay below `2^(8n)`. -/
theorem memReadIsBigEndian : Obligations.MemReadIsBigEndian := by
  intro m ea
  refine ⟨?_, ?_, ?_, fun n hn => ?_⟩
  · simp [Memory.toNat_read]
  · simp [Memory.toNat_read]
  · rw [Memory.toNat_read m ea (by decide)]
    simp only [Memory.bytesValue_succ, Memory.bytesValue_zero, Nat.add_zero]
    omega
  · have hn4 : n ≤ 4 := by revert n; decide
    exact (m.toNat_read ea hn4).trans_lt (m.bytesValue_lt ea n)

/-- Settles O24: the bytes of the store are `byteAt_write` and `byteAt_write_last`, the others are
`Memory.readByte_write_outside`. -/
theorem memWriteStoresTheLowBytesBigEndian : Obligations.MemWriteStoresTheLowBytesBigEndian := by
  intro m ea v
  have stored (n k : Nat) (hk : k < n) := byteAt_write m ea v hk
  have top : v.toNat / 2 ^ 24 % 2 ^ 8 = v.toNat / 2 ^ 24 := Nat.mod_eq_of_lt (by omega)
  exact ⟨byteAt_write_last m ea 0 v,
    stored 2 0 (by decide), byteAt_write_last m ea 1 v,
    (stored 4 0 (by decide)).trans top, stored 4 1 (by decide), stored 4 2 (by decide), byteAt_write_last m ea 3 v,
    fun n _ a ha => Memory.readByte_write_outside m ea v ha⟩

end Sys2Proof.Proofs

/-! ### The frame of a register write, and SET's value -/

namespace Sys2Proof.Machine

/-- R23, R27, R32, R36: a completed write of one register has the frame of one. -/
theorem State.writesOnlyReg_writeReg (s : State) (rd : RegIx) (v : Word) :
    WritesOnlyReg rd s ((s.writeReg rd v).withPcWe false) where
  regs   := fun _ hq => s.reg_writeReg_other v hq
  pc     := rfl
  pcWe   := rfl
  memory := fun _ => rfl
  latch  := ⟨rfl, rfl, rfl⟩
  host   := ⟨rfl, rfl⟩

/-- R151: the immediate stays below bit 24, where SET's top byte is joined, so the two add. -/
theorem setValue_toNat (sx : Bool) (imm : BitVec 24) :
    (setValue sx imm).toNat = (if sx then 0xFF000000 else 0) + imm.toNat := by
  have himm : (imm.setWidth 32).toNat = imm.toNat := BitVec.toNat_setWidth_of_le (by decide)
  cases sx with
  | false => simp only [setValue, Bool.false_eq_true, if_false, BitVec.zero_or, himm, Nat.zero_add]
  | true =>
    have htop : place 0xFF#8 24 = 0xFF000000#32 := by decide
    calc (setValue true imm).toNat
      _ = (imm.setWidth 32 ||| place 0xFF#8 24).toNat := by simp only [setValue, htop, if_true, BitVec.or_comm]
      _ = imm.toNat + (0xFF#8).toNat * 2 ^ 24 := by
        rw [or_place_toNat _ _ _ (by decide) (himm ▸ imm.isLt), himm]
      _ = 0xFF000000 + imm.toNat := Nat.add_comm _ _

end Sys2Proof.Machine

/-! ### SET (spec/42_set.md) -/

namespace Sys2Proof.Proofs

open Sys2Proof Sys2Proof.Machine

/-- Settles O33: the word is format S (`encodeS_toNat`), the value `setValue_toNat`, the frame that of a register write. -/
theorem setReplacesTheRegister : Obligations.SetReplacesTheRegister := by
  intro s rd sx imm
  refine ⟨encodeS_toNat 3#4 rd sx imm, fun hs => ⟨_, exec_set_running rd sx imm hs, ?_, s.writesOnlyReg_writeReg rd _⟩⟩
  rw [State.reg_withPcWe, State.reg_writeReg_same, setValue_toNat]

end Sys2Proof.Proofs

/-! ### A completed register write, operand B, and wrap-around -/

namespace Sys2Proof.Machine

open Sys2Proof.Spec

/-- R10, R23: an instruction that completes by writing one register has a next state that reads the value there and has the
frame of a register write. -/
theorem exists_next_writesOnlyReg {i : Instr} {s : State} {rd : RegIx} {v : Word}
    (h : exec i s = .next ((s.writeReg rd v).withPcWe false)) :
    ∃ t, exec i s = .next t ∧ t.reg rd = v ∧ WritesOnlyReg rd s t :=
  ⟨_, h, s.reg_writeReg_same rd v, s.writesOnlyReg_writeReg rd v⟩

/-- R93: operand B has the spec's value; the immediate is zero-extended. -/
theorem operandB_toNat (rb : RegIx) (f : Bool) (imm : BitVec 18) (s : State) :
    (operandB rb f imm s).toNat = operandBValue rb f imm s := by
  cases f with
  | false => rfl
  | true => exact BitVec.toNat_setWidth_of_le (b := imm) (show 18 ≤ 32 by decide)

/-- R93: operand B is the word of the spec's value. -/
theorem ofNat_operandBValue (rb : RegIx) (f : Bool) (imm : BitVec 18) (s : State) :
    BitVec.ofNat 32 (operandBValue rb f imm s) = operandB rb f imm s := by
  rw [← operandB_toNat, BitVec.ofNat_toNat, BitVec.setWidth_eq]

/-- R164: the difference of words in the spec's form, which adds `2^32` before it subtracts. -/
theorem sub_toNat (a b : Word) : (a - b).toNat = (a.toNat + 2 ^ 32 - b.toNat) % 2 ^ 32 := by
  rw [BitVec.toNat_sub, Nat.add_comm a.toNat, Nat.sub_add_comm b.isLt.le]

/-- R161: an operator on words is an operator on integers, reduced modulo `2^32`, with the operands and the result read as
unsigned and with all of them read as two's-complement numbers. -/
structure WrapsInBothReadings (op : Word → Word → Word) (onInt : Int → Int → Int) : Prop where
  unsigned : ∀ a b, ((op a b).toNat : Int) = onInt a.toNat b.toNat % 2 ^ 32
  signed   : ∀ a b, (op a b).toInt = (onInt a.toInt b.toInt).bmod (2 ^ 32)

theorem add_wrapsInBothReadings : WrapsInBothReadings (fun a b => a + b) (fun a b => a + b) where
  unsigned a b := by rw [BitVec.toNat_add]; push_cast; rfl
  signed := BitVec.toInt_add

theorem sub_wrapsInBothReadings : WrapsInBothReadings (fun a b => a - b) (fun a b => a - b) where
  unsigned a b := by rw [sub_toNat]; omega
  signed _ _ := BitVec.toInt_sub

theorem mul_wrapsInBothReadings : WrapsInBothReadings (fun a b => a * b) (fun a b => a * b) where
  unsigned a b := by rw [BitVec.toNat_mul]; push_cast; rfl
  signed := BitVec.toInt_mul

/-- R161: an instruction that completes with an operator that wraps gives the integer result in both readings. -/
theorem exists_next_wraps {op : Word → Word → Word} {onInt : Int → Int → Int} (hop : WrapsInBothReadings op onInt)
    {i : Instr} {s : State} {rd ra rb : RegIx} {f : Bool} {imm : BitVec 18} (hs : s.halted = false)
    (h : exec i s = .next ((s.writeReg rd (op (s.reg ra) (operandB rb f imm s))).withPcWe false)) :
    ∃ t, exec i s = .next t ∧ t.halted = false ∧
      ((t.reg rd).toNat : Int) = onInt (s.reg ra).toNat (operandBValue rb f imm s) % 2 ^ 32 ∧
      (t.reg rd).toInt = (onInt (s.reg ra).toInt (BitVec.ofNat 32 (operandBValue rb f imm s)).toInt).bmod (2 ^ 32) := by
  obtain ⟨t, ht, hv, hframe⟩ := exists_next_writesOnlyReg h
  refine ⟨t, ht, hframe.latch.halted.trans hs, ?_, ?_⟩
  · rw [hv, hop.unsigned, operandB_toNat]
  · rw [hv, hop.signed, ofNat_operandBValue]

end Sys2Proof.Machine

/-! ### ADD, SUB and MUL (spec/43_arithmetic.md) -/

namespace Sys2Proof.Proofs

open Sys2Proof Sys2Proof.Machine

/-- Settles O36: the word is format A (`encodeA_toNat`), the value the sum of words, the frame that of a register write. -/
theorem addWritesTheSumModulo2To32 : Obligations.AddWritesTheSumModulo2To32 := by
  intro s rd ra rb f imm
  refine ⟨encodeA_toNat 5#4 rd ra rb f imm, fun hs => ?_⟩
  obtain ⟨t, ht, hv, hframe⟩ := exists_next_writesOnlyReg (exec_add_running rd ra rb f imm hs)
  exact ⟨t, ht, by rw [hv, BitVec.toNat_add, operandB_toNat], hframe⟩

/-- Settles O37: as O36, with the difference of words in the spec's form (`sub_toNat`). -/
theorem subWritesTheDifferenceModulo2To32 : Obligations.SubWritesTheDifferenceModulo2To32 := by
  intro s rd ra rb f imm
  refine ⟨encodeA_toNat 6#4 rd ra rb f imm, fun hs => ?_⟩
  obtain ⟨t, ht, hv, hframe⟩ := exists_next_writesOnlyReg (exec_sub_running rd ra rb f imm hs)
  exact ⟨t, ht, by rw [hv, sub_toNat, operandB_toNat], hframe⟩

/-- Settles O38: as O36, with the product of words. -/
theorem mulWritesTheProductModulo2To32 : Obligations.MulWritesTheProductModulo2To32 := by
  intro s rd ra rb f imm
  refine ⟨encodeA_toNat 7#4 rd ra rb f imm, fun hs => ?_⟩
  obtain ⟨t, ht, hv, hframe⟩ := exists_next_writesOnlyReg (exec_mul_running rd ra rb f imm hs)
  exact ⟨t, ht, by rw [hv, BitVec.toNat_mul, operandB_toNat], hframe⟩

/-- Settles O39, instruction by instruction: each completes (`exists_next_wraps`), and its operator on words wraps in both
readings. -/
theorem addSubMulWrapInBothReadings : Obligations.AddSubMulWrapInBothReadings := by
  intro s rd ra rb f imm hs p hp
  simp only [List.mem_cons, List.not_mem_nil, or_false] at hp
  rcases hp with rfl | rfl | rfl
  · exact exists_next_wraps add_wrapsInBothReadings hs (exec_add_running rd ra rb f imm hs)
  · exact exists_next_wraps sub_wrapsInBothReadings hs (exec_sub_running rd ra rb f imm hs)
  · exact exists_next_wraps mul_wrapsInBothReadings hs (exec_mul_running rd ra rb f imm hs)

end Sys2Proof.Proofs

/-! ### Operand B, and a format A result, bit by bit -/

namespace Sys2Proof.Machine

open Sys2Proof.Spec

/-- R93: the bits of operand B are the spec's; above the immediate's 18 bits both are zero. -/
theorem operandB_getLsbD (rb : RegIx) (f : Bool) (imm : BitVec 18) (s : State) {j : Nat} (hj : j < 32) :
    (operandB rb f imm s).getLsbD j = operandBBit rb f imm s j := by
  cases f with
  | false => rfl
  | true =>
    calc (imm.setWidth 32).getLsbD j
      _ = (decide (j < 32) && imm.getLsbD j) := BitVec.getLsbD_setWidth ..
      _ = imm.getLsbD j := by rw [decide_eq_true hj, Bool.true_and]

/-- R180: an instruction that completes with an operator on words that acts bit by bit gives each bit of the destination from
the same bit of its operands, and has the frame of a register write. -/
theorem exists_next_bitwise {op : Word → Word → Word} {onBit : Bool → Bool → Bool}
    (hop : ∀ a b j, (op a b).getLsbD j = onBit (a.getLsbD j) (b.getLsbD j))
    {i : Instr} {s : State} {rd ra rb : RegIx} {f : Bool} {imm : BitVec 18}
    (h : exec i s = .next ((s.writeReg rd (op (s.reg ra) (operandB rb f imm s))).withPcWe false)) :
    ∃ t, exec i s = .next t ∧
      (∀ j, j < 32 → (t.reg rd).getLsbD j = onBit ((s.reg ra).getLsbD j) (operandBBit rb f imm s j)) ∧
      WritesOnlyReg rd s t := by
  obtain ⟨t, ht, hv, hframe⟩ := exists_next_writesOnlyReg h
  exact ⟨t, ht, fun j hj => by rw [hv, hop, operandB_getLsbD rb f imm s hj], hframe⟩

end Sys2Proof.Machine

/-! ### AND, OR and XOR (spec/44_bitwise.md) -/

namespace Sys2Proof.Proofs

open Sys2Proof Sys2Proof.Machine

/-- Settles O44: the word is format A (`encodeA_toNat`), and `&&&` on words acts bit by bit (`exists_next_bitwise`). -/
theorem andCombinesBitByBit : Obligations.AndCombinesBitByBit := fun _ rd ra rb f imm =>
  ⟨encodeA_toNat 10#4 rd ra rb f imm,
    fun hs => exists_next_bitwise (fun _ _ _ => BitVec.getLsbD_and) (exec_and_running rd ra rb f imm hs)⟩

/-- Settles O45: as O44, with `|||`. -/
theorem orCombinesBitByBit : Obligations.OrCombinesBitByBit := fun _ rd ra rb f imm =>
  ⟨encodeA_toNat 11#4 rd ra rb f imm,
    fun hs => exists_next_bitwise (fun _ _ _ => BitVec.getLsbD_or) (exec_or_running rd ra rb f imm hs)⟩

/-- Settles O46: as O44, with `^^^`. -/
theorem xorCombinesBitByBit : Obligations.XorCombinesBitByBit := fun _ rd ra rb f imm =>
  ⟨encodeA_toNat 12#4 rd ra rb f imm,
    fun hs => exists_next_bitwise (fun _ _ _ => BitVec.getLsbD_xor) (exec_xor_running rd ra rb f imm hs)⟩

end Sys2Proof.Proofs

/-! ### The values of BSR and BSL, as the library's shifts and rotations, and bit by bit -/

namespace Sys2Proof.Machine

/-- R192: without rotate, BSR is the logical shift. -/
@[simp] theorem shiftRightValue_shift (v : Word) (k : BitVec 5) : shiftRightValue v k false = v >>> k.toNat := rfl

/-- R193: without rotate, BSL is the logical shift. -/
@[simp] theorem shiftLeftValue_shift (v : Word) (k : BitVec 5) : shiftLeftValue v k false = v <<< k.toNat := rfl

/-- R191, R192: with rotate, BSR is the rotation; the amount 0, which the spec sets apart, is the rotation by 0. -/
@[simp] theorem shiftRightValue_rotate (v : Word) (k : BitVec 5) : shiftRightValue v k true = v.rotateRight k.toNat := by
  rw [BitVec.rotateRight_eq_rotateRightAux_of_lt k.isLt]
  by_cases hk : k = 0#5
  · subst hk
    simp [shiftRightValue, BitVec.rotateRightAux]
  · simp only [shiftRightValue, Bool.true_eq_false, if_false, if_neg hk, BitVec.rotateRightAux]

/-- R191, R193: with rotate, BSL is the rotation, as `shiftRightValue_rotate`. -/
@[simp] theorem shiftLeftValue_rotate (v : Word) (k : BitVec 5) : shiftLeftValue v k true = v.rotateLeft k.toNat := by
  rw [BitVec.rotateLeft_eq_rotateLeftAux_of_lt k.isLt]
  by_cases hk : k = 0#5
  · subst hk
    simp [shiftLeftValue, BitVec.rotateLeftAux, BitVec.ushiftRight_eq_zero]
  · simp only [shiftLeftValue, Bool.true_eq_false, if_false, if_neg hk, BitVec.rotateLeftAux]

/-- R192: rotating right takes bit `j` from `k` places above, counted modulo 32: either there is such a place, or the count
passes the top once. -/
theorem rotateRight_getLsbD (v : Word) {k j : Nat} (hk : k < 32) (hj : j < 32) :
    (v.rotateRight k).getLsbD j = v.getLsbD ((j + k) % 32) := by
  rw [BitVec.getLsbD_rotateRight_of_lt hk, decide_eq_true hj, Bool.true_and]
  by_cases hjk : j < 32 - k
  · rw [decide_eq_true hjk, cond_true, show (j + k) % 32 = k + j by omega]
  · rw [decide_eq_false hjk, cond_false, show (j + k) % 32 = j - (32 - k) by omega]

/-- R193: rotating left takes bit `j` from `k` places below, counted modulo 32, as `rotateRight_getLsbD`. -/
theorem rotateLeft_getLsbD (v : Word) {k j : Nat} (hk : k < 32) (hj : j < 32) :
    (v.rotateLeft k).getLsbD j = v.getLsbD ((j + 32 - k) % 32) := by
  rw [BitVec.getLsbD_rotateLeft_of_le hk, decide_eq_true hj, Bool.true_and]
  by_cases hjk : j < k
  · rw [decide_eq_true hjk, cond_true, show (j + 32 - k) % 32 = 32 - k + j by omega]
  · rw [decide_eq_false hjk, cond_false, show (j + 32 - k) % 32 = j - k by omega]

/-- R192: the logical shift right takes bit `j` from `k` places above, where the word has such a place. -/
theorem ushiftRight_getLsbD (v : Word) (k j : Nat) :
    (v >>> k).getLsbD j = (decide (j + k ≤ 31) && v.getLsbD (j + k)) := by
  rw [BitVec.getLsbD_ushiftRight, Nat.add_comm k j]
  by_cases hjk : j + k ≤ 31
  · rw [decide_eq_true hjk, Bool.true_and]
  · rw [decide_eq_false hjk, Bool.false_and, BitVec.getLsbD_of_ge v (j + k) (by omega)]

/-- R193: the logical shift left takes bit `j` from `k` places below, where the word has such a place. -/
theorem shiftLeft_getLsbD (v : Word) (k : Nat) {j : Nat} (hj : j < 32) :
    (v <<< k).getLsbD j = (decide (k ≤ j) && v.getLsbD (j - k)) := by
  rw [BitVec.getLsbD_shiftLeft, decide_eq_true hj, Bool.true_and, ← decide_not, decide_eq_decide.2 Nat.not_lt]

/-- R192, bit by bit. -/
theorem shiftRightValue_getLsbD (v : Word) (k : BitVec 5) (rot : Bool) {j : Nat} (hj : j < 32) :
    (shiftRightValue v k rot).getLsbD j =
      if rot then v.getLsbD ((j + k.toNat) % 32) else decide (j + k.toNat ≤ 31) && v.getLsbD (j + k.toNat) := by
  cases rot with
  | false => rw [shiftRightValue_shift, ushiftRight_getLsbD, if_neg Bool.false_ne_true]
  | true => rw [shiftRightValue_rotate, rotateRight_getLsbD v k.isLt hj, if_pos rfl]

/-- R193, bit by bit. -/
theorem shiftLeftValue_getLsbD (v : Word) (k : BitVec 5) (rot : Bool) {j : Nat} (hj : j < 32) :
    (shiftLeftValue v k rot).getLsbD j =
      if rot then v.getLsbD ((j + 32 - k.toNat) % 32) else decide (k.toNat ≤ j) && v.getLsbD (j - k.toNat) := by
  cases rot with
  | false => rw [shiftLeftValue_shift, shiftLeft_getLsbD v k.toNat hj, if_neg Bool.false_ne_true]
  | true => rw [shiftLeftValue_rotate, rotateLeft_getLsbD v k.isLt hj, if_pos rfl]

end Sys2Proof.Machine

/-! ### BSR and BSL (spec/45_shift.md) -/

namespace Sys2Proof.Proofs

open Sys2Proof Sys2Proof.Machine

/-- Settles O47: the word is format H (`encodeH_toNat`), each bit that of the value (`shiftRightValue_getLsbD`), the frame that
of a register write. -/
theorem bsrShiftsOrRotatesRight : Obligations.BsrShiftsOrRotatesRight := by
  intro s rd rs k rot ign
  refine ⟨encodeH_toNat 13#4 rd rs k rot ign, fun hs => ?_⟩
  obtain ⟨t, ht, hv, hframe⟩ := exists_next_writesOnlyReg (exec_bsr_running rd rs k rot ign hs)
  exact ⟨t, ht, fun j hj => by rw [hv, shiftRightValue_getLsbD _ k rot hj], hframe⟩

/-- Settles O48: as O47, with `shiftLeftValue_getLsbD`. -/
theorem bslShiftsOrRotatesLeft : Obligations.BslShiftsOrRotatesLeft := by
  intro s rd rs k rot ign
  refine ⟨encodeH_toNat 14#4 rd rs k rot ign, fun hs => ?_⟩
  obtain ⟨t, ht, hv, hframe⟩ := exists_next_writesOnlyReg (exec_bsl_running rd rs k rot ign hs)
  exact ⟨t, ht, fun j hj => by rw [hv, shiftLeftValue_getLsbD _ k rot hj], hframe⟩

end Sys2Proof.Proofs

/-! ### The fault of an instruction -/

namespace Sys2Proof.Machine

/-- R208, R217: an instruction that halts a running CORE has entered one of the faults it can raise; the other outcomes leave
the latch as it was. -/
theorem exists_entersFault_of_exec {i : Instr} {s t : State} (hs : s.halted = false) (h : exec i s = .next t)
    (ht : t.halted = true) : ∃ e, i.canRaise e ∧ EntersFault e e.code (encode i) s t := by
  cases RunningOutcome.of_exec hs h with
  | faults he => exact ⟨_, he, s.entersFault_enterFault _ _⟩
  | _ => exact absurd ht (by simp [hs])

end Sys2Proof.Machine

/-! ### Exceptions (spec/60_exceptions.md) -/

namespace Sys2Proof.Proofs

open Sys2Proof Sys2Proof.Machine

/-- Settles O9: what halts a running CORE is the entry of a fault (`exists_entersFault_of_exec`), which changes only the
latch and `pc_we`. -/
theorem faultsChangeOnlyTheLatch : Obligations.FaultsChangeOnlyTheLatch := by
  intro i s t hs h ht
  obtain ⟨e, -, hfault⟩ := exists_entersFault_of_exec hs h ht
  exact ⟨hfault.regs, hfault.pc, hfault.memory, hfault.pcWe, hfault.host⟩

end Sys2Proof.Proofs

/-! ### The fields of a word, and decoding opcode by opcode -/

namespace Sys2Proof

/-- R81: a field is the unsigned value of its bits. -/
@[simp] theorem fld_toNat (w : Word) (start width : Nat) :
    (fld w start width).toNat = w.toNat / 2 ^ (start - 1) % 2 ^ width := by
  rw [fld, BitVec.extractLsb'_toNat, Nat.shiftRight_eq_div_pow]

@[simp] theorem flag_toNat (w : Word) (pos : Nat) : (flag w pos).toNat = w.toNat / 2 ^ (pos - 1) % 2 :=
  Nat.toNat_testBit ..

/-- A flag is known by its number. -/
theorem flag_eq {w : Word} {pos : Nat} {f : Bool} (h : w.toNat / 2 ^ (pos - 1) % 2 = f.toNat) : flag w pos = f := by
  rw [← Bool.ofNat_toNat (flag w pos), flag_toNat, h, Bool.ofNat_toNat]

/-- A field is known by its number. -/
theorem fld_eq {w : Word} {start width : Nat} {v : BitVec width}
    (h : w.toNat / 2 ^ (start - 1) % 2 ^ width = v.toNat) : fld w start width = v :=
  BitVec.eq_of_toNat_eq ((fld_toNat w start width).trans h)

/-- R85: the fields of format J. -/
def readJ (w : Word) : Instr := .jmp (flag w 5) (fld w 6 3) (flag w 9) (fld w 10 3) (fld w 13 20)

/-- R86: the fields of format M, under the constructor of an opcode. -/
def readM (mk : BitVec 2 → Bool → RegIx → RegIx → BitVec 19 → Instr) (w : Word) : Instr :=
  mk (fld w 5 2) (flag w 7) (fld w 8 3) (fld w 11 3) (fld w 14 19)

/-- R87: the fields of format S. -/
def readS (w : Word) : Instr := .set (fld w 5 3) (flag w 8) (fld w 9 24)

/-- R88: the fields of format U. -/
def readU (w : Word) : Instr := .setu (fld w 5 3) (fld w 8 7) (fld w 15 18)

/-- R89: the fields of format A, under the constructor of an opcode. -/
def readA (mk : RegIx → RegIx → RegIx → Bool → BitVec 18 → Instr) (w : Word) : Instr :=
  mk (fld w 5 3) (fld w 8 3) (fld w 11 3) (flag w 14) (fld w 15 18)

/-- R90: the fields of format H, under the constructor of an opcode. -/
def readH (mk : RegIx → RegIx → BitVec 5 → Bool → BitVec 16 → Instr) (w : Word) : Instr :=
  mk (fld w 5 3) (fld w 8 3) (fld w 11 5) (flag w 16) (fld w 17 16)

/-- R84, R100: the instruction a word holds under an opcode number. -/
def readOpcode (w : Word) : Nat → Instr
  | 0 => readJ w
  | 1 => readM .ld w
  | 2 => readM .put w
  | 3 => readS w
  | 4 => readU w
  | 5 => readA .add w
  | 6 => readA .sub w
  | 7 => readA .mul w
  | 8 => readA .div w
  | 9 => readA .mod w
  | 10 => readA .and w
  | 11 => readA .or w
  | 12 => readA .xor w
  | 13 => readH .bsr w
  | 14 => readH .bsl w
  | _ => .illegal (fld w 5 28)

/-- The dispatch of `decode`: the opcode is the word modulo 16. -/
theorem decode_of_opcode {w : Word} {n : Nat} (h : w.toNat % 16 = n) : decode w = readOpcode w n := by
  have hop : (fld w 1 4).toNat = n := by rw [fld_toNat, ← h]; simp
  unfold decode
  rw [hop]
  rfl

/-! ### A word's opcode -/

/-- R84, R111: the four low bits of every instruction's word are its opcode. -/
theorem encode_opcode (i : Instr) : (encode i).toNat % 16 = i.opcode.toNat := by
  cases i with
  | jmp f b c cr o => exact Laws.OpcodeField.jmp f b c cr o
  | ld ws f r bf o => exact Laws.OpcodeField.ld ws f r bf o
  | put ws f r bf o => exact Laws.OpcodeField.put ws f r bf o
  | set rd sx imm => exact Laws.OpcodeField.set rd sx imm
  | setu rd imm ign => exact Laws.OpcodeField.setu rd imm ign
  | add rd ra rb f imm => exact Laws.OpcodeField.add rd ra rb f imm
  | sub rd ra rb f imm => exact Laws.OpcodeField.sub rd ra rb f imm
  | mul rd ra rb f imm => exact Laws.OpcodeField.mul rd ra rb f imm
  | div rd ra rb f imm => exact Laws.OpcodeField.div rd ra rb f imm
  | mod rd ra rb f imm => exact Laws.OpcodeField.mod rd ra rb f imm
  | and rd ra rb f imm => exact Laws.OpcodeField.and rd ra rb f imm
  | or rd ra rb f imm => exact Laws.OpcodeField.or rd ra rb f imm
  | xor rd ra rb f imm => exact Laws.OpcodeField.xor rd ra rb f imm
  | bsr rd rs k rot ign => exact Laws.OpcodeField.bsr rd rs k rot ign
  | bsl rd rs k rot ign => exact Laws.OpcodeField.bsl rd rs k rot ign
  | illegal rest => exact Laws.OpcodeField.illegal rest

/-- The word of an instruction is decoded by the format of the instruction's opcode. -/
theorem decode_encode_eq_readOpcode (i : Instr) : decode (encode i) = readOpcode (encode i) i.opcode.toNat :=
  decode_of_opcode (encode_opcode i)

/-! ### Reading each format back from its word -/

/-- R85 against R111: every field of format J. -/
theorem fields_encodeJ (op : BitVec 4) (i : Bool) (b : RegIx) (c : Bool) (cr : RegIx) (o : BitVec 20) :
    flag (encodeJ op i b c cr o) 5 = i ∧ fld (encodeJ op i b c cr o) 6 3 = b ∧
    flag (encodeJ op i b c cr o) 9 = c ∧ fld (encodeJ op i b c cr o) 10 3 = cr ∧
    fld (encodeJ op i b c cr o) 13 20 = o := by
  have hw := encodeJ_toNat op i b c cr o
  have hi := i.toNat_lt
  have hc := c.toNat_lt
  exact ⟨flag_eq (by omega), fld_eq (by omega), flag_eq (by omega), fld_eq (by omega), fld_eq (by omega)⟩

/-- R86 against R111: every field of format M. -/
theorem fields_encodeM (op : BitVec 4) (ws : BitVec 2) (i : Bool) (r bf : RegIx) (o : BitVec 19) :
    fld (encodeM op ws i r bf o) 5 2 = ws ∧ flag (encodeM op ws i r bf o) 7 = i ∧
    fld (encodeM op ws i r bf o) 8 3 = r ∧ fld (encodeM op ws i r bf o) 11 3 = bf ∧
    fld (encodeM op ws i r bf o) 14 19 = o := by
  have hw := encodeM_toNat op ws i r bf o
  have hi := i.toNat_lt
  exact ⟨fld_eq (by omega), flag_eq (by omega), fld_eq (by omega), fld_eq (by omega), fld_eq (by omega)⟩

theorem readJ_encodeJ (op : BitVec 4) (i : Bool) (b : RegIx) (c : Bool) (cr : RegIx) (o : BitVec 20) :
    readJ (encodeJ op i b c cr o) = .jmp i b c cr o := by
  simp only [readJ, fields_encodeJ]

theorem readM_encodeM (mk : BitVec 2 → Bool → RegIx → RegIx → BitVec 19 → Instr) (op : BitVec 4) (ws : BitVec 2)
    (i : Bool) (r bf : RegIx) (o : BitVec 19) : readM mk (encodeM op ws i r bf o) = mk ws i r bf o := by
  simp only [readM, fields_encodeM]

theorem readS_encodeS (op : BitVec 4) (rd : RegIx) (sx : Bool) (imm : BitVec 24) :
    readS (encodeS op rd sx imm) = .set rd sx imm := by
  have hw := encodeS_toNat op rd sx imm
  have hsx := sx.toNat_lt
  rw [readS, Instr.set.injEq]
  exact ⟨fld_eq (by omega), flag_eq (by omega), fld_eq (by omega)⟩

theorem readU_encodeU (op : BitVec 4) (rd : RegIx) (imm : BitVec 7) (ign : BitVec 18) :
    readU (encodeU op rd imm ign) = .setu rd imm ign := by
  have hw := encodeU_toNat op rd imm ign
  rw [readU, Instr.setu.injEq]
  exact ⟨fld_eq (by omega), fld_eq (by omega), fld_eq (by omega)⟩

theorem readA_encodeA (mk : RegIx → RegIx → RegIx → Bool → BitVec 18 → Instr) (op : BitVec 4) (rd ra rb : RegIx)
    (i : Bool) (imm : BitVec 18) : readA mk (encodeA op rd ra rb i imm) = mk rd ra rb i imm := by
  have hw := encodeA_toNat op rd ra rb i imm
  have hi := i.toNat_lt
  have hrd : fld (encodeA op rd ra rb i imm) 5 3 = rd := fld_eq (by omega)
  have hra : fld (encodeA op rd ra rb i imm) 8 3 = ra := fld_eq (by omega)
  have hrb : fld (encodeA op rd ra rb i imm) 11 3 = rb := fld_eq (by omega)
  have hf : flag (encodeA op rd ra rb i imm) 14 = i := flag_eq (by omega)
  have himm : fld (encodeA op rd ra rb i imm) 15 18 = imm := fld_eq (by omega)
  rw [readA, hrd, hra, hrb, hf, himm]

theorem readH_encodeH (mk : RegIx → RegIx → BitVec 5 → Bool → BitVec 16 → Instr) (op : BitVec 4) (rd rs : RegIx)
    (k : BitVec 5) (rot : Bool) (ign : BitVec 16) : readH mk (encodeH op rd rs k rot ign) = mk rd rs k rot ign := by
  have hw := encodeH_toNat op rd rs k rot ign
  have hrot := rot.toNat_lt
  have hrd : fld (encodeH op rd rs k rot ign) 5 3 = rd := fld_eq (by omega)
  have hrs : fld (encodeH op rd rs k rot ign) 8 3 = rs := fld_eq (by omega)
  have hk : fld (encodeH op rd rs k rot ign) 11 5 = k := fld_eq (by omega)
  have hf : flag (encodeH op rd rs k rot ign) 16 = rot := flag_eq (by omega)
  have hign : fld (encodeH op rd rs k rot ign) 17 16 = ign := fld_eq (by omega)
  rw [readH, hrd, hrs, hk, hf, hign]

/-- R101: the word of the illegal opcode as the sum of its opcode and its other bits. -/
theorem encode_illegal_toNat (rest : BitVec 28) : (encode (.illegal rest)).toNat = 15 + rest.toNat * 2 ^ 4 := by
  have hop := place_zero_toNat 15#4
  rw [encode, or_place_toNat _ rest 4 (by decide) (hop ▸ by decide), hop]
  rfl

/-- R111 is the inverse of R85 to R90, opcode by opcode. -/
theorem decode_encode (i : Instr) : decode (encode i) = i := by
  rw [decode_encode_eq_readOpcode]
  cases i with
  | jmp f b c cr o => exact readJ_encodeJ _ f b c cr o
  | ld ws f r bf o => exact readM_encodeM .ld _ ws f r bf o
  | put ws f r bf o => exact readM_encodeM .put _ ws f r bf o
  | set rd sx imm => exact readS_encodeS _ rd sx imm
  | setu rd imm ign => exact readU_encodeU _ rd imm ign
  | add rd ra rb f imm => exact readA_encodeA .add _ rd ra rb f imm
  | sub rd ra rb f imm => exact readA_encodeA .sub _ rd ra rb f imm
  | mul rd ra rb f imm => exact readA_encodeA .mul _ rd ra rb f imm
  | div rd ra rb f imm => exact readA_encodeA .div _ rd ra rb f imm
  | mod rd ra rb f imm => exact readA_encodeA .mod _ rd ra rb f imm
  | and rd ra rb f imm => exact readA_encodeA .and _ rd ra rb f imm
  | or rd ra rb f imm => exact readA_encodeA .or _ rd ra rb f imm
  | xor rd ra rb f imm => exact readA_encodeA .xor _ rd ra rb f imm
  | bsr rd rs k rot ign => exact readH_encodeH .bsr _ rd rs k rot ign
  | bsl rd rs k rot ign => exact readH_encodeH .bsl _ rd rs k rot ign
  | illegal rest =>
    have hw := encode_illegal_toNat rest
    exact congrArg Instr.illegal (fld_eq (by omega))

/-! ### A word is the sum of the fields read from it -/

section
variable {w : Word} {op : BitVec 4} (hop : w.toNat % 16 = op.toNat)
include hop

theorem encodeJ_fields : encodeJ op (flag w 5) (fld w 6 3) (flag w 9) (fld w 10 3) (fld w 13 20) = w := by
  apply BitVec.eq_of_toNat_eq
  rw [encodeJ_toNat, flag_toNat, fld_toNat, flag_toNat, fld_toNat, fld_toNat]
  omega

theorem encodeM_fields : encodeM op (fld w 5 2) (flag w 7) (fld w 8 3) (fld w 11 3) (fld w 14 19) = w := by
  apply BitVec.eq_of_toNat_eq
  rw [encodeM_toNat, fld_toNat, flag_toNat, fld_toNat, fld_toNat, fld_toNat]
  omega

theorem encodeS_fields : encodeS op (fld w 5 3) (flag w 8) (fld w 9 24) = w := by
  apply BitVec.eq_of_toNat_eq
  rw [encodeS_toNat, fld_toNat, flag_toNat, fld_toNat]
  omega

theorem encodeU_fields : encodeU op (fld w 5 3) (fld w 8 7) (fld w 15 18) = w := by
  apply BitVec.eq_of_toNat_eq
  rw [encodeU_toNat, fld_toNat, fld_toNat, fld_toNat]
  omega

theorem encodeA_fields : encodeA op (fld w 5 3) (fld w 8 3) (fld w 11 3) (flag w 14) (fld w 15 18) = w := by
  apply BitVec.eq_of_toNat_eq
  rw [encodeA_toNat, fld_toNat, fld_toNat, fld_toNat, flag_toNat, fld_toNat]
  omega

theorem encodeH_fields : encodeH op (fld w 5 3) (fld w 8 3) (fld w 11 5) (flag w 16) (fld w 17 16) = w := by
  apply BitVec.eq_of_toNat_eq
  rw [encodeH_toNat, fld_toNat, fld_toNat, fld_toNat, flag_toNat, fld_toNat]
  omega

end

/-- R104: no bit of a word is lost in the instruction of its opcode. -/
theorem encode_readOpcode {w : Word} {n : Nat} (h : w.toNat % 16 = n) : encode (readOpcode w n) = w := by
  match n with
  | 0 => exact encodeJ_fields h
  | 1 | 2 => exact encodeM_fields h
  | 3 => exact encodeS_fields h
  | 4 => exact encodeU_fields h
  | 5 | 6 | 7 | 8 | 9 | 10 | 11 | 12 => exact encodeA_fields h
  | 13 | 14 => exact encodeH_fields h
  | n + 15 =>
    have hw := encode_illegal_toNat (fld w 5 28)
    rw [fld_toNat] at hw
    exact BitVec.eq_of_toNat_eq (hw.trans (by omega))

theorem encode_decode (w : Word) : encode (decode w) = w := by
  rw [decode_of_opcode rfl, encode_readOpcode rfl]

/-- R84: the opcode of the instruction a word holds is the word modulo 16. -/
theorem opcode_decode (w : Word) : (decode w).opcode.toNat = w.toNat % 16 := by
  rw [← encode_opcode, encode_decode]

/-! ### Legal words -/

/-- R101, R102: a word's instruction is ill-formed by its opcode or by its width selector. -/
theorem wf_decode_eq_false_iff (w : Word) :
    (decode w).wf = false ↔
      w.toNat % 16 = 15 ∨ ((w.toNat % 16 = 1 ∨ w.toNat % 16 = 2) ∧ w.toNat / 2 ^ 4 % 4 = 3) := by
  have selector : (decide (fld w 5 2 ≠ 3#2) = false) ↔ w.toNat / 2 ^ 4 % 4 = 3 := by
    rw [decide_eq_false_iff_not, not_not, ← BitVec.toNat_inj, fld_toNat]
    rfl
  have legal {n : Nat} (h : w.toNat % 16 = n) (h15 : n ≠ 15) (h1 : n ≠ 1) (h2 : n ≠ 2) :
      true = false ↔ w.toNat % 16 = 15 ∨ ((w.toNat % 16 = 1 ∨ w.toNat % 16 = 2) ∧ w.toNat / 2 ^ 4 % 4 = 3) :=
    iff_of_false (by decide) (by omega)
  obtain ⟨n, h⟩ : ∃ n, w.toNat % 16 = n := ⟨_, rfl⟩
  rw [decode_of_opcode h]
  match n with
  | 1 | 2 => exact selector.trans (by omega)
  | 0 | 3 | 4 | 5 | 6 | 7 | 8 | 9 | 10 | 11 | 12 | 13 | 14 => exact legal h (by decide) (by decide) (by decide)
  | n + 15 => exact iff_of_true rfl (by omega)

/-- R101, R102, R104: the legal decoder in one equation: the instruction where it is well-formed, else the reason. -/
theorem decodeLegal_eq (w : Word) :
    decodeLegal w =
      if (decode w).wf = true then .ok (decode w)
      else if (decode w).opcode = 15#4 then .error (.invalidOpcode w)
      else .error (.invalidWidthSelector w) := by
  unfold decodeLegal
  cases decode w with
  | ld ws f r bf o => by_cases h : ws = 3#2 <;> simp [Instr.wf, Instr.opcode, h]
  | put ws f r bf o => by_cases h : ws = 3#2 <;> simp [Instr.wf, Instr.opcode, h]
  | _ => rfl

end Sys2Proof

/-! ### Encoding (spec/30_encoding.md) -/

namespace Sys2Proof.Proofs

open Sys2Proof Sys2Proof.Machine

/-- Settles O2: each format is read back from its word (`decode_encode`). -/
theorem decodeUndoesEncode : Obligations.DecodeUndoesEncode := decode_encode

/-- Settles O3: each word is the sum of the fields read from it (`encode_decode`). -/
theorem encodeUndoesDecode : Obligations.EncodeUndoesDecode := encode_decode

/-- Settles O5: the ill-formed words are `wf_decode_eq_false_iff`; the legal decoder answers by `decodeLegal_eq`, in its three
cases. -/
theorem onlyOpcode15AndWidthSelector3AreIllegal : Obligations.OnlyOpcode15AndWidthSelector3AreIllegal := by
  intro w
  have hill := wf_decode_eq_false_iff w
  have hop : (decode w).opcode = 15#4 ↔ w.toNat % 16 = 15 := by
    rw [← BitVec.toNat_inj, opcode_decode]
    rfl
  have hlegal := decodeLegal_eq w
  by_cases hwf : (decode w).wf = true
  · rw [if_pos hwf] at hlegal
    have hw := mt hill.2 (by simp [hwf])
    refine ⟨hill, fun i => ?_, iff_of_false (by simp [hlegal]) (by omega), iff_of_false (by simp [hlegal]) (by omega)⟩
    rw [hlegal, Except.ok.injEq]
    exact ⟨fun h => ⟨h, h ▸ hwf⟩, And.left⟩
  · rw [if_neg hwf] at hlegal
    have hw := hill.1 (Bool.eq_false_of_not_eq_true hwf)
    have hno (i : Instr) : ¬ (decode w = i ∧ i.wf = true) := fun ⟨h, hi⟩ => hwf (h ▸ hi)
    by_cases h15 : (decode w).opcode = 15#4
    · rw [if_pos h15] at hlegal
      have h := hop.1 h15
      exact ⟨hill, fun i => iff_of_false (by simp [hlegal]) (hno i), iff_of_true hlegal h,
        iff_of_false (by simp [hlegal]) (by omega)⟩
    · rw [if_neg h15] at hlegal
      have h := hw.resolve_left (mt hop.2 h15)
      exact ⟨hill, fun i => iff_of_false (by simp [hlegal]) (hno i), iff_of_false (by simp [hlegal]) (by omega),
        iff_of_true hlegal h⟩

/-- Settles O4, opcode by opcode: `decode_of_opcode` gives the constructor, `fld_toNat` and `flag_toNat` the fields. -/
theorem decodeReadsEveryFieldAtItsPlace : Obligations.DecodeReadsEveryFieldAtItsPlace := by
  intro w
  have hw := w.isLt
  refine ⟨fun h => ?_, fun p hp h => ?_, fun h => ?_, fun h => ?_, fun p hp h => ?_, fun p hp h => ?_, fun h => ?_⟩
  · exact ⟨_, _, _, _, _, decode_of_opcode h, by simp, by simp, by simp, by simp, by simp; omega⟩
  · have hd : decode w = readM p.2 w := by
      simp only [List.mem_cons, List.not_mem_nil, or_false] at hp
      rcases hp with rfl | rfl <;> exact decode_of_opcode h
    exact ⟨_, _, _, _, _, hd, by simp, by simp, by simp, by simp, by simp; omega⟩
  · exact ⟨_, _, _, decode_of_opcode h, by simp, by simp, by simp; omega⟩
  · exact ⟨_, _, _, decode_of_opcode h, by simp, by simp, by simp; omega⟩
  · have hd : decode w = readA p.2 w := by
      simp only [List.mem_cons, List.not_mem_nil, or_false] at hp
      rcases hp with rfl | rfl | rfl | rfl | rfl | rfl | rfl | rfl <;> exact decode_of_opcode h
    exact ⟨_, _, _, _, _, hd, by simp, by simp, by simp, by simp, by simp; omega⟩
  · have hd : decode w = readH p.2 w := by
      simp only [List.mem_cons, List.not_mem_nil, or_false] at hp
      rcases hp with rfl | rfl <;> exact decode_of_opcode h
    exact ⟨_, _, _, _, _, hd, by simp, by simp, by simp, by simp, by simp; omega⟩
  · exact ⟨_, decode_of_opcode h, by simp; omega⟩

/-- Settles O1: eleven closed words, decoded. -/
theorem decodeReadsTheWrittenOutWords : Obligations.DecodeReadsTheWrittenOutWords := by
  unfold Obligations.DecodeReadsTheWrittenOutWords
  decide

end Sys2Proof.Proofs

/-! ### The result of an instruction: what `exec` concludes -/

namespace Sys2Proof.Machine

/-- R10: the result of every instruction, completed or a fault, before CORE applies it. `exec_eq_conclude` ties it to
`exec`. -/
def result (i : Instr) (s : State) : InstrResult :=
  match i with
  | .jmp f b c cr o =>
    if jumpSkipped c cr s then .completed s false
    else
      match resolveOffset f o s with
      | .ok off => .completed (s.writePc (s.reg b + off)) true
      | .error e => .fatal e
  | .ld ws f r bf o =>
    match resolveAccess ws f bf o s with
    | .ok a => .completed (s.writeReg r (s.mem.read a.ea a.n)) false
    | .error e => .fatal e
  | .put ws f r bf o =>
    match resolveAccess ws f bf o s with
    | .ok a => .completed (s.store a.ea a.n (s.reg r)) false
    | .error e => .fatal e
  | .set rd sx imm => .completed (s.writeReg rd (setValue sx imm)) false
  | .setu rd imm _ => .completed (s.writeReg rd (setuValue (s.reg rd) imm)) false
  | .add rd ra rb f imm => formatAResult (fun a b => a + b) rd ra rb f imm s
  | .sub rd ra rb f imm => formatAResult (fun a b => a - b) rd ra rb f imm s
  | .mul rd ra rb f imm => formatAResult (fun a b => a * b) rd ra rb f imm s
  | .div rd ra rb f imm => divisionResult 8#4 (fun a b => a.udiv b) rd ra rb f imm s
  | .mod rd ra rb f imm => divisionResult 9#4 (fun a b => a.umod b) rd ra rb f imm s
  | .and rd ra rb f imm => formatAResult (fun a b => a &&& b) rd ra rb f imm s
  | .or rd ra rb f imm => formatAResult (fun a b => a ||| b) rd ra rb f imm s
  | .xor rd ra rb f imm => formatAResult (fun a b => a ^^^ b) rd ra rb f imm s
  | .bsr rd rs k rot _ => .completed (s.writeReg rd (shiftRightValue (s.reg rs) k rot)) false
  | .bsl rd rs k rot _ => .completed (s.writeReg rd (shiftLeftValue (s.reg rs) k rot)) false
  | .illegal _ => .fatal (.invalidOpcode 15#4)

/-- `exec_concludes` with the result named. -/
theorem exec_eq_conclude (i : Instr) (s : State) : exec i s = conclude (encode i) (result i s) s := by
  cases i <;> rfl

/-- A running CORE enters the fault an instruction's result names, or applies its writes. -/
theorem exec_running_cases {i : Instr} {s t : State} (hs : s.halted = false) (h : exec i s = .next t) :
    (∃ u p, result i s = .completed u p ∧ t = u.withPcWe p) ∨
    (∃ e, result i s = .fatal e ∧ t = s.enterFault e (encode i)) := by
  rw [exec_eq_conclude] at h
  rcases conclude_cases h with ⟨hh, -⟩ | ⟨-, hc⟩ | ⟨-, hf⟩
  · cases hs.symm.trans hh
  · exact .inl hc
  · exact .inr hf

/-! ### A fault agrees with the word that raised it -/

/-- R84: the opcode field of an instruction's word. -/
theorem fld_opcode_encode (i : Instr) : fld (encode i) 1 4 = i.opcode :=
  fld_eq (by simpa using encode_opcode i)

/-- R203, R205, R206: the fault of an access agrees with the word of the LD or PUT that makes it. -/
theorem agreesWith_of_resolveAccess_error {ws : BitVec 2} {f : Bool} {r bf : RegIx} {o : BitVec 19} {s : State}
    {e : FatalFault} (ha : resolveAccess ws f bf o s = .error e) {i : Instr}
    (hi : i = .ld ws f r bf o ∨ i = .put ws f r bf o) : e.agreesWith (encode i) := by
  have hop : fld (encode i) 1 4 = 1#4 ∨ fld (encode i) 1 4 = 2#4 := by
    rcases hi with rfl | rfl
    · exact .inl (fld_opcode_encode _)
    · exact .inr (fld_opcode_encode _)
  obtain ⟨hws, hf, -, -, ho⟩ : fld (encode i) 5 2 = ws ∧ flag (encode i) 7 = f ∧ fld (encode i) 8 3 = r ∧
      fld (encode i) 11 3 = bf ∧ fld (encode i) 14 19 = o := by
    rcases hi with rfl | rfl <;> exact fields_encodeM _ ws f r bf o
  rcases resolveAccess_error ha with ⟨hw, rfl⟩ | ⟨-, hreg, hlarge, rfl⟩ | ⟨hw, off, -, hout, rfl⟩
  · exact ⟨rfl, hws.trans hw, hop⟩
  · exact ⟨hlarge, .inr ⟨hop, hf.trans hreg, congrArg BitVec.toNat ho⟩⟩
  · exact ⟨hout, by rw [hws], by rwa [hws], hop⟩

/-- R205: the fault of a JMP's offset agrees with the word of the JMP. -/
theorem agreesWith_of_resolveOffset_error {f : Bool} {b : RegIx} {c : Bool} {cr : RegIx} {o : BitVec 20} {s : State}
    {e : FatalFault} (ho : resolveOffset f o s = .error e) : e.agreesWith (encode (.jmp f b c cr o)) := by
  obtain ⟨hreg, hlarge, rfl⟩ := resolveOffset_error ho
  obtain ⟨hf, -, -, -, hoff⟩ := fields_encodeJ 0#4 f b c cr o
  exact ⟨hlarge, .inl ⟨fld_opcode_encode _, hf.trans hreg, congrArg BitVec.toNat hoff⟩⟩

/-- R201, R207: a result is consistent with the word it comes from: a fault agrees with that word, and only a fault sets the
latch. -/
def InstrResult.ConsistentWith (w : Word) (s : State) : InstrResult → Prop
  | .completed u _ => u.halted = s.halted
  | .fatal e => e.agreesWith w

/-- R204: DIV and MOD with their own opcode fault in agreement with their word. -/
theorem divisionResult_consistentWith {op : BitVec 4} {w : Word} (hw : fld w 1 4 = op) (hop : op = 8#4 ∨ op = 9#4)
    (g : Word → Word → Word) (rd ra rb : RegIx) (f : Bool) (imm : BitVec 18) (s : State) :
    (divisionResult op g rd ra rb f imm s).ConsistentWith w s := by
  unfold divisionResult
  split
  · exact ⟨hw, hop⟩
  · rfl

theorem result_consistentWith (i : Instr) (s : State) : (result i s).ConsistentWith (encode i) s := by
  cases i with
  | jmp f b c cr o =>
    simp only [result]
    split
    · rfl
    · split
      · rfl
      · exact agreesWith_of_resolveOffset_error ‹_›
  | ld ws f r bf o =>
    simp only [result]
    split
    · rfl
    · exact agreesWith_of_resolveAccess_error ‹_› (.inl rfl)
  | put ws f r bf o =>
    simp only [result]
    split
    · rfl
    · exact agreesWith_of_resolveAccess_error ‹_› (.inr rfl)
  | div rd ra rb f imm => exact divisionResult_consistentWith (fld_opcode_encode _) (.inl rfl) _ rd ra rb f imm s
  | mod rd ra rb f imm => exact divisionResult_consistentWith (fld_opcode_encode _) (.inr rfl) _ rd ra rb f imm s
  | illegal rest => exact ⟨rfl, fld_opcode_encode _⟩
  | _ => rfl

/-- R201: the fault that an instruction enters agrees with the instruction's word. -/
theorem agreesWith_of_exec_enterFault {i : Instr} {s : State} {e : FatalFault} {w : Word} (hs : s.halted = false)
    (h : exec i s = .next (s.enterFault e w)) : e.agreesWith (encode i) := by
  have hcons := result_consistentWith i s
  rcases exec_running_cases hs h with ⟨u, p, hr, ht⟩ | ⟨e', hr, ht⟩ <;> rw [hr] at hcons
  · have hu : true = u.halted := congrArg State.halted ht
    cases hu.trans (hcons.trans hs)
  · have hinfo : FaultInfo.report e w = .report e' (encode i) := congrArg State.faultInfo ht
    cases hinfo
    exact hcons

/-! ### The invariant, operation by operation -/

/-- The invariant is kept where memory stays canonical, host and latch stay, and `pc_we` stays 0 while halted. -/
theorem State.Inv.of_sameLatch {s t : State} (h : s.Inv) (hm : t.mem.wf) (hh : SameHost s t) (hl : SameLatch s t)
    (hp : t.halted = true → t.pcWe = false) : t.Inv where
  memory := hm
  store := hh.imem ▸ h.store
  pcStep := hh.params ▸ h.pcStep
  latchClear := fun ht => by
    rw [hl.faultCode, hl.faultInfo]
    exact h.latchClear (hl.halted ▸ ht)
  latchHolds := fun ht => by
    rw [hl.faultCode, hl.faultInfo]
    exact ⟨hp ht, (h.latchHolds (hl.halted ▸ ht)).2⟩

/-- R201, R208: the entry of a fault that agrees with its word keeps the invariant. -/
theorem State.Inv.enterFault {s : State} (h : s.Inv) {e : FatalFault} {w : Word} (he : e.agreesWith w) :
    (s.enterFault e w).Inv where
  memory := h.memory
  store := h.store
  pcStep := h.pcStep
  latchClear := nofun
  latchHolds := fun _ => ⟨rfl, e, w, rfl, rfl, he⟩

/-- R28, R209: an instruction that changes nothing but `pc_we = 0` keeps the invariant. -/
theorem State.Inv.withPcWe_false {s : State} (h : s.Inv) : (s.withPcWe false).Inv :=
  h.of_sameLatch h.memory ⟨rfl, rfl⟩ ⟨rfl, rfl, rfl⟩ fun _ => rfl

/-- R231: reset keeps the invariant. -/
theorem State.Inv.applyReset {s : State} (h : s.Inv) : s.applyReset.Inv where
  memory := Memory.wf_nil
  store := h.store
  pcStep := h.pcStep
  latchClear := fun _ => ⟨rfl, rfl⟩
  latchHolds := nofun

/-- R238: an advance keeps the invariant. -/
theorem State.Inv.advance {s : State} (h : s.Inv) : s.advance.Inv :=
  h.of_sameLatch (by simpa using h.memory) ⟨by simp, by simp⟩ ⟨by simp, by simp, by simp⟩ fun ht => by
    simpa using (h.latchHolds (by simpa using ht)).1

/-- R238: the host's part of a step keeps the invariant. -/
theorem State.Inv.sequence {s : State} (h : s.Inv) : s.sequence.Inv := by
  unfold State.sequence
  split
  · exact h
  · exact h.advance

/-- The invariant is kept by every instruction presented to CORE. -/
theorem State.Inv.exec {i : Instr} {s t : State} (h : s.Inv) (hx : exec i s = .next t) : t.Inv := by
  rcases exec_cases hx with ⟨-, rfl⟩ | ⟨hs, hout⟩
  · exact h.withPcWe_false
  · have running {u : State} (hu : u.halted = s.halted) : u.halted = true → u.pcWe = false := by simp [hu, hs]
    cases hout with
    | writesReg v hd => exact h.of_sameLatch h.memory ⟨rfl, rfl⟩ ⟨rfl, rfl, rfl⟩ (running rfl)
    | stores ha =>
      obtain ⟨-, -, -, -, hin⟩ := resolveAccess_ok ha
      exact h.of_sameLatch (Memory.wf_write h.memory hin _) ⟨rfl, rfl⟩ ⟨rfl, rfl, rfl⟩ (running rfl)
    | jumps hk ho => exact h.of_sameLatch h.memory ⟨rfl, rfl⟩ ⟨rfl, rfl, rfl⟩ (running rfl)
    | skips hk => exact h.withPcWe_false
    | faults he => exact h.enterFault (agreesWith_of_exec_enterFault hs hx)

/-! ### The boundary -/

/-- R209: a halted CORE ignores an instruction and an advance presented together. -/
theorem respond_execWithAdvance_halted (w : Word) {s : State} (h : s.halted = true) :
    respond ⟨false, some w, true⟩ s = .next (s.withPcWe false) :=
  if_pos h

end Sys2Proof.Machine

/-! ### The invariant (spec/10_state.md, spec/60_exceptions.md, spec/70_reset_and_hazards.md) -/

namespace Sys2Proof.Proofs

open Sys2Proof Sys2Proof.Machine

/-- Settles O57: every part is empty, clear or the reference value at reset. -/
theorem resetSatisfiesTheInvariant : Obligations.ResetSatisfiesTheInvariant where
  memory := Memory.wf_nil
  store := ⟨.nil, nofun⟩
  pcStep := by decide
  latchClear := fun _ => ⟨rfl, rfl⟩
  latchHolds := nofun

/-- Settles O58: a step is an instruction and the host's part, and both keep the invariant (`State.Inv.exec`,
`State.Inv.sequence`). -/
theorem everyStepKeepsTheInvariant : Obligations.EveryStepKeepsTheInvariant := by
  intro s t h ht
  obtain ⟨-, w, u, -, hu, rfl⟩ := step_cases ht
  exact (h.exec hu).sequence

/-- Settles O59, request by request: reset, nothing, an advance, an instruction, or both of a halted CORE. -/
theorem everyHostRequestKeepsTheInvariant : Obligations.EveryHostRequestKeepsTheInvariant := by
  rintro ⟨rst, word, adv⟩ s t h ht
  match rst, word, adv with
  | true, _, _ =>
    cases ht
    exact h.applyReset
  | false, none, false =>
    cases ht
    exact h
  | false, none, true =>
    cases ht
    exact h.advance
  | false, some w, false => exact h.exec ht
  | false, some w, true =>
    cases hs : s.halted with
    | true =>
      cases (respond_execWithAdvance_halted w hs).symm.trans ht
      exact h.withPcWe_false
    | false => simp [respond, hs] at ht

/-- Settles O60: the launch image touches one part of the invariant, memory, and brings it in canonical form. -/
theorem launchStatesKeepTheInvariant : Obligations.LaunchStatesKeepTheInvariant :=
  fun _ _ h hm => ⟨hm, h.store, h.pcStep, h.latchClear, h.latchHolds⟩

end Sys2Proof.Proofs

/-! ### Ignored bits -/

namespace Sys2Proof.Machine

/-- R103: the result of an instruction does not depend on its ignored bits. -/
theorem result_withoutIgnored (i : Instr) (s : State) : result i.withoutIgnored s = result i s := by
  cases i with
  | jmp f b c cr o => cases c <;> rfl
  | add rd ra rb f imm => cases f <;> rfl
  | sub rd ra rb f imm => cases f <;> rfl
  | mul rd ra rb f imm => cases f <;> rfl
  | div rd ra rb f imm => cases f <;> rfl
  | mod rd ra rb f imm => cases f <;> rfl
  | and rd ra rb f imm => cases f <;> rfl
  | or rd ra rb f imm => cases f <;> rfl
  | xor rd ra rb f imm => cases f <;> rfl
  | _ => rfl

/-- R201: one result concluded under two words differs in the recorded word alone, and only where it is a fault. -/
theorem conclude_forgetWord (w w' : Word) (r : InstrResult) (s : State) :
    ∃ t u, conclude w r s = .next t ∧ conclude w' r s = .next u ∧ t.forgetWord = u.forgetWord ∧
      (t.halted = false → t = u) := by
  cases h : s.halted with
  | true => exact ⟨_, _, conclude_halted w r h, conclude_halted w' r h, rfl, fun _ => rfl⟩
  | false =>
    cases r with
    | completed t p => exact ⟨_, _, conclude_completed w t p h, conclude_completed w' t p h, rfl, fun _ => rfl⟩
    | fatal e => exact ⟨_, _, conclude_fatal w e h, conclude_fatal w' e h, rfl, nofun⟩

/-! ### A register that is not read -/

/-- A second write of a register replaces the first. -/
theorem State.writeReg_writeReg_same (s : State) (q : RegIx) (v x : Word) :
    (s.writeReg q v).writeReg q x = s.writeReg q x := by
  simp [State.writeReg]

/-- Writes of two registers commute. -/
theorem State.writeReg_writeReg_comm (s : State) {q r : RegIx} (v x : Word) (h : r ≠ q) :
    (s.writeReg q v).writeReg r x = (s.writeReg r x).writeReg q v := by
  have hne : q.toNat ≠ r.toNat := fun e => h (BitVec.eq_of_toNat_eq e.symm)
  simp [State.writeReg, Vector.set_comm _ _ hne]

/-- The result an instruction of destination `d` has once the register `q`, which it does not read, holds `v`. -/
def InstrResult.overReg (d : Option RegIx) (q : RegIx) (v : Word) : InstrResult → InstrResult
  | .completed t p => .completed (if d = some q then t else t.writeReg q v) p
  | .fatal e => .fatal e

section
variable {s : State} {q : RegIx} {v : Word}

theorem completed_writeReg_overReg (rd : RegIx) (x : Word) :
    InstrResult.completed ((s.writeReg q v).writeReg rd x) false =
      (InstrResult.completed (s.writeReg rd x) false).overReg (some rd) q v := by
  by_cases h : rd = q
  · simp [InstrResult.overReg, h, State.writeReg_writeReg_same]
  · simp [InstrResult.overReg, h, s.writeReg_writeReg_comm v x h]

theorem operandB_writeReg {rb : RegIx} {f : Bool} (h : ¬ (f = false ∧ q = rb)) (imm : BitVec 18) :
    operandB rb f imm (s.writeReg q v) = operandB rb f imm s := by
  cases f with
  | true => rfl
  | false => exact s.reg_writeReg_other v fun e => h ⟨rfl, e.symm⟩

theorem resolveOffset_writeReg {n : Nat} {f : Bool} {o : BitVec n} (h : ¬ (f = false ∧ q.toNat = o.toNat)) :
    resolveOffset f o (s.writeReg q v) = resolveOffset f o s := by
  cases f with
  | true => rfl
  | false =>
    by_cases ho : o.toNat ≤ 7
    · have hne : BitVec.ofNat 3 o.toNat ≠ q := by
        rintro rfl
        exact h ⟨rfl, by simp; omega⟩
      rw [resolveOffset_register _ _ ho, resolveOffset_register _ _ ho, s.reg_writeReg_other v hne]
    · rw [resolveOffset_outOfRange _ _ (by omega), resolveOffset_outOfRange _ _ (by omega)]

theorem accessBase_writeReg {bf : RegIx} (h : ¬ (s.params.ldPutBase = .register ∧ q = bf)) :
    accessBase bf (s.writeReg q v) = accessBase bf s := by
  unfold accessBase
  rw [State.writeReg_params]
  cases hb : s.params.ldPutBase with
  | field => rfl
  | register => exact congrArg BitVec.toNat (s.reg_writeReg_other v fun e => h ⟨hb, e.symm⟩)

theorem resolveAccess_writeReg {f : Bool} {o : BitVec 19} {bf : RegIx} (ho : ¬ (f = false ∧ q.toNat = o.toNat))
    (hb : ¬ (s.params.ldPutBase = .register ∧ q = bf)) (ws : BitVec 2) :
    resolveAccess ws f bf o (s.writeReg q v) = resolveAccess ws f bf o s := by
  simp only [resolveAccess, resolveOffset_writeReg ho, accessBase_writeReg hb]

theorem jumpSkipped_writeReg {c : Bool} {cr : RegIx} (h : ¬ (c = true ∧ q = cr)) :
    jumpSkipped c cr (s.writeReg q v) = jumpSkipped c cr s := by
  cases c with
  | false => rfl
  | true =>
    have hcr : (s.writeReg q v).reg cr = s.reg cr := s.reg_writeReg_other v fun e => h ⟨rfl, e.symm⟩
    simp only [jumpSkipped, hcr, State.writeReg_params]

theorem formatAResult_writeReg {ra rb : RegIx} {f : Bool} (h : ¬ (q = ra ∨ (f = false ∧ q = rb)))
    (g : Word → Word → Word) (rd : RegIx) (imm : BitVec 18) :
    formatAResult g rd ra rb f imm (s.writeReg q v) = (formatAResult g rd ra rb f imm s).overReg (some rd) q v := by
  obtain ⟨ha, hb⟩ := not_or.1 h
  rw [formatAResult, operandB_writeReg hb, s.reg_writeReg_other v (Ne.symm ha)]
  exact completed_writeReg_overReg rd _

theorem divisionResult_writeReg {ra rb : RegIx} {f : Bool} (h : ¬ (q = ra ∨ (f = false ∧ q = rb))) (op : BitVec 4)
    (g : Word → Word → Word) (rd : RegIx) (imm : BitVec 18) :
    divisionResult op g rd ra rb f imm (s.writeReg q v) =
      (divisionResult op g rd ra rb f imm s).overReg (some rd) q v := by
  unfold divisionResult
  rw [operandB_writeReg (not_or.1 h).2]
  split
  · rfl
  · exact formatAResult_writeReg h g rd imm

/-- R22: a register that an instruction is not listed to read does not change its result. -/
theorem result_writeReg {i : Instr} (h : ¬ i.readsReg s q) :
    result i (s.writeReg q v) = (result i s).overReg i.dest q v := by
  cases i with
  | jmp f b c cr o =>
    obtain ⟨hc, hrest⟩ := not_or.1 h
    simp only [result, jumpSkipped_writeReg hc]
    split
    · rfl
    · rename_i hs
      obtain ⟨hb, ho⟩ := not_or.1 fun hr => hrest ⟨mt (jumpSkipped_iff_skipHolds c cr s).2 hs, hr⟩
      rw [resolveOffset_writeReg ho, s.reg_writeReg_other v (Ne.symm hb)]
      split <;> rfl
  | ld ws f r bf o =>
    obtain ⟨ho, hb⟩ := not_or.1 h
    simp only [result, resolveAccess_writeReg ho hb]
    split
    · exact completed_writeReg_overReg r _
    · rfl
  | put ws f r bf o =>
    obtain ⟨hr, hrest⟩ := not_or.1 h
    obtain ⟨ho, hb⟩ := not_or.1 hrest
    simp only [result, resolveAccess_writeReg ho hb, s.reg_writeReg_other v (Ne.symm hr)]
    split <;> rfl
  | set rd sx imm => exact completed_writeReg_overReg rd _
  | setu rd imm ign =>
    simp only [result, s.reg_writeReg_other v (Ne.symm h)]
    exact completed_writeReg_overReg rd _
  | add rd ra rb f imm => exact formatAResult_writeReg h _ rd imm
  | sub rd ra rb f imm => exact formatAResult_writeReg h _ rd imm
  | mul rd ra rb f imm => exact formatAResult_writeReg h _ rd imm
  | div rd ra rb f imm => exact divisionResult_writeReg h _ _ rd imm
  | mod rd ra rb f imm => exact divisionResult_writeReg h _ _ rd imm
  | and rd ra rb f imm => exact formatAResult_writeReg h _ rd imm
  | or rd ra rb f imm => exact formatAResult_writeReg h _ rd imm
  | xor rd ra rb f imm => exact formatAResult_writeReg h _ rd imm
  | bsr rd rs k rot ign =>
    simp only [result, s.reg_writeReg_other v (Ne.symm h)]
    exact completed_writeReg_overReg rd _
  | bsl rd rs k rot ign =>
    simp only [result, s.reg_writeReg_other v (Ne.symm h)]
    exact completed_writeReg_overReg rd _
  | illegal rest => rfl

/-- R22: the next state of an instruction with another value in a register it does not read: the same, or the same with that
value in the register; the latter for a destination only after a fault. -/
theorem exec_writeReg {i : Instr} (h : ¬ i.readsReg s q) :
    ∃ t u, exec i s = .next t ∧ exec i (s.writeReg q v) = .next u ∧
      ((i.dest = some q ∧ u = t) ∨ ((i.dest = some q → t.halted = true) ∧ u = t.writeReg q v)) := by
  cases hs : s.halted with
  | true =>
    exact ⟨_, _, exec_halted i hs, exec_halted i (s := s.writeReg q v) hs, .inr ⟨fun _ => hs, rfl⟩⟩
  | false =>
    rw [exec_eq_conclude, exec_eq_conclude, result_writeReg h]
    cases result i s with
    | completed t p =>
      refine ⟨_, _, conclude_completed _ t p hs, conclude_completed _ _ p (s := s.writeReg q v) hs, ?_⟩
      by_cases hd : i.dest = some q
      · exact .inl ⟨hd, by rw [if_pos hd]⟩
      · exact .inr ⟨fun e => absurd e hd, by rw [if_neg hd]; rfl⟩
    | fatal e =>
      exact ⟨_, _, conclude_fatal _ e hs, conclude_fatal _ e (s := s.writeReg q v) hs, .inr ⟨fun _ => rfl, rfl⟩⟩

end

end Sys2Proof.Machine

/-! ### Ignored bits and registers read (spec/30_encoding.md, spec/10_state.md) -/

namespace Sys2Proof.Proofs

open Sys2Proof Sys2Proof.Machine

/-- Settles O6: the two instructions have one result (`result_withoutIgnored`), concluded under two words. -/
theorem ignoredBitsHaveNoEffect : Obligations.IgnoredBitsHaveNoEffect := by
  intro i j s h
  have hr : result i s = result j s := by rw [← result_withoutIgnored i, h, result_withoutIgnored j]
  rw [exec_eq_conclude, exec_eq_conclude, hr]
  exact conclude_forgetWord _ _ _ s

/-- Settles O12, by `exec_writeReg`: the two next states are equal, or differ in the register that was changed. -/
theorem onlyTheListedRegistersAreRead : Obligations.OnlyTheListedRegistersAreRead := by
  intro i s q v h
  obtain ⟨t, u, ht, hu, ⟨hd, rfl⟩ | ⟨hd, rfl⟩⟩ := exec_writeReg (v := v) h
  · exact ⟨u, u, ht, hu, rfl, rfl, rfl, ⟨rfl, rfl, rfl⟩, ⟨rfl, rfl⟩, fun _ _ => rfl, fun hn => absurd hd hn,
      fun _ _ => rfl⟩
  · exact ⟨t, _, ht, hu, rfl, rfl, rfl, ⟨rfl, rfl, rfl⟩, ⟨rfl, rfl⟩, fun _ hp => t.reg_writeReg_other v hp,
      fun _ => t.reg_writeReg_same q v, fun hq hrun => absurd (hd hq) (by simp [hrun])⟩

end Sys2Proof.Proofs

/-! ### Frames of what the operations do -/

namespace Sys2Proof.Machine

open Sys2Proof.Spec

/-- R28: the output `pc_we = 0` alone changes nothing. -/
theorem State.changesNothing_withPcWe (s : State) : ChangesNothing s (s.withPcWe false) :=
  ⟨fun _ => rfl, rfl, rfl, fun _ => rfl, ⟨rfl, rfl, rfl⟩, ⟨rfl, rfl⟩⟩

/-- R54: a completed store has the frame of its bytes. -/
theorem State.writesOnlyBytes_store (s : State) (ea n : Nat) (v : Word) :
    WritesOnlyBytes ea n s ((s.store ea n v).withPcWe false) where
  regs   := fun _ => rfl
  pc     := rfl
  pcWe   := rfl
  memory := fun _ ha => Memory.readByte_write_outside s.mem ea v ha
  latch  := ⟨rfl, rfl, rfl⟩
  host   := ⟨rfl, rfl⟩

/-- A register written with its own value leaves the state as it was. -/
@[simp] theorem State.writeReg_reg (s : State) (r : RegIx) : s.writeReg r (s.reg r) = s := by
  simp [State.writeReg, State.reg]

/-- R104: an instruction that writes back the value its destination holds changes nothing. -/
theorem exists_next_changesNothing {i : Instr} {s : State} {r : RegIx} {v : Word}
    (h : exec i s = .next ((s.writeReg r v).withPcWe false)) (hv : v = s.reg r) :
    ∃ t, exec i s = .next t ∧ ChangesNothing s t := by
  rw [hv, State.writeReg_reg] at h
  exact ⟨_, h, s.changesNothing_withPcWe⟩

/-! ### The offset of JMP, LD and PUT -/

/-- R91, R92: an offset that resolves has the spec's value. -/
theorem resolveOffset_toNat {n : Nat} (hn : n ≤ 32) {f : Bool} {o : BitVec n} {s : State} {off : Word}
    (h : resolveOffset f o s = .ok off) : off.toNat = offsetValue f o s := by
  cases f with
  | true =>
    cases h
    exact BitVec.toNat_setWidth_of_le hn
  | false =>
    by_cases ho : o.toNat ≤ 7
    · cases (resolveOffset_register o s ho).symm.trans h
      rfl
    · cases (resolveOffset_outOfRange o s (by omega)).symm.trans h

/-- R92: an offset that is an immediate or names a register resolves. -/
theorem exists_resolveOffset {n : Nat} {f : Bool} {o : BitVec n} (h : OffsetNamed f o) (s : State) :
    ∃ off, resolveOffset f o s = .ok off := by
  cases f with
  | true => exact ⟨_, resolveOffset_immediate o s⟩
  | false => exact ⟨_, resolveOffset_register o s (h.resolve_left (by decide))⟩

/-- R92, R205: any other offset is a register index out of range. -/
theorem resolveOffset_of_not_named {n : Nat} {f : Bool} {o : BitVec n} (h : ¬ OffsetNamed f o) (s : State) :
    resolveOffset f o s = .error (.regIndexOutOfRange o.toNat) := by
  obtain ⟨hf, ho⟩ := not_or.1 h
  rw [Bool.eq_false_of_not_eq_true hf]
  exact resolveOffset_outOfRange o s (by omega)

theorem jumpSkipped_of_not_skipHolds {c : Bool} {cr : RegIx} {s : State} (h : ¬ skipHolds c cr s) :
    jumpSkipped c cr s = false :=
  Bool.eq_false_of_not_eq_true (mt (jumpSkipped_iff_skipHolds c cr s).1 h)

/-! ### The access of LD and PUT -/

theorem accessWidth_of_ne {ws : BitVec 2} (h : ws ≠ 3#2) : accessWidth ws = .ok (byteCount ws) := if_neg h

/-- R132, R133: the effective address is the base plus the offset, unreduced. -/
theorem effectiveAddress_eq (f : Bool) (bf : RegIx) (o : BitVec 19) (s : State) :
    effectiveAddress f bf o s = accessBase bf s + offsetValue f o s := rfl

/-- The effective address depends on the registers and the parameters alone. -/
theorem effectiveAddress_congr {s t : State} (hr : SameRegs s t) (hp : t.params = s.params) (f : Bool) (bf : RegIx)
    (o : BitVec 19) : effectiveAddress f bf o t = effectiveAddress f bf o s := by
  simp only [effectiveAddress, offsetValue, hr _, hp]

/-- R131: past the width selector and the offset, only the bounds are left to check. -/
theorem resolveAccess_of_named {ws : BitVec 2} {f : Bool} {o : BitVec 19} (hw : ws ≠ 3#2) (ho : OffsetNamed f o)
    (bf : RegIx) (s : State) :
    resolveAccess ws f bf o s = checkBounds ⟨effectiveAddress f bf o s, byteCount ws⟩ := by
  obtain ⟨off, hoff⟩ := exists_resolveOffset ho s
  simp only [resolveAccess, accessWidth_of_ne hw, hoff, effectiveAddress_eq, resolveOffset_toNat (by decide) hoff]

theorem selector_cases {ws : BitVec 2} (h : ws ≠ 3#2) : ws = 0#2 ∨ ws = 1#2 ∨ ws = 2#2 := by
  revert ws
  decide

/-- R205, R206, R208: LD and PUT enter the fault of their access. -/
theorem exists_next_accessFault {ws : BitVec 2} {f : Bool} {bf : RegIx} {o : BitVec 19} {s : State} {e : FatalFault}
    (hs : s.halted = false) (ha : resolveAccess ws f bf o s = .error e) {r : RegIx} {i : Instr}
    (hi : i ∈ [Instr.ld ws f r bf o, Instr.put ws f r bf o]) :
    ∃ t, exec i s = .next t ∧ EntersFault e e.code (encode i) s t := by
  refine ⟨s.enterFault e (encode i), ?_, s.entersFault_enterFault e _⟩
  simp only [List.mem_cons, List.not_mem_nil, or_false] at hi
  rcases hi with rfl | rfl
  · exact exec_ld_fault r hs ha
  · exact exec_put_fault r hs ha

end Sys2Proof.Machine

/-! ### JMP, LD and PUT (spec/40_jmp.md, spec/41_load_store.md, spec/20_memory.md) -/

namespace Sys2Proof.Proofs

open Sys2Proof Sys2Proof.Machine Sys2Proof.Spec

/-- Settles O13: the outcomes of a JMP, and `exec_pc_of_ne_jmp` for every other instruction. -/
theorem onlyATakenJmpWritesThePc : Obligations.OnlyATakenJmpWritesThePc := by
  intro i s t h
  refine ⟨exec_pc_of_ne_jmp h, ?_, ?_⟩
  · rintro f b c cr o rfl hskip
    rcases exec_cases h with ⟨-, rfl⟩ | ⟨-, hout⟩
    · rfl
    · cases hout with
      | jumps hk _ => exact absurd hskip hk
      | _ => rfl
  · rintro f b c cr o rfl hskip hrun
    cases RunningOutcome.of_exec (running_of_exec h hrun) h with
    | writesReg v hd => cases hd
    | jumps _ ho =>
      rw [State.withPcWe_pc, State.writePc_pc, BitVec.toNat_add, resolveOffset_toNat (by decide) ho]
    | skips hk => exact absurd hk hskip
    | faults _ => cases hrun

/-- Settles O20: the skip test comes before the offset (`exec_jmp_skipped`). -/
theorem skippedJmpChangesNothing : Obligations.SkippedJmpChangesNothing := fun s f b c cr o hs hskip =>
  ⟨_, exec_jmp_skipped f b c cr o hs ((jumpSkipped_iff_skipHolds c cr s).2 hskip), s.changesNothing_withPcWe⟩

/-- Settles O21: the offset resolves (`exists_resolveOffset`) to the spec's value (`resolveOffset_toNat`). -/
theorem takenJmpSetsThePc : Obligations.TakenJmpSetsThePc := by
  intro s f b c cr o hs hskip hnamed
  obtain ⟨off, ho⟩ := exists_resolveOffset hnamed s
  refine ⟨_, exec_jmp_taken f b c cr o hs (jumpSkipped_of_not_skipHolds hskip) ho, ?_,
    ⟨fun _ => rfl, rfl, fun _ => rfl, ⟨rfl, rfl, rfl⟩, ⟨rfl, rfl⟩⟩⟩
  rw [State.withPcWe_pc, State.writePc_pc, BitVec.toNat_add, resolveOffset_toNat (by decide) ho]

/-- Settles O22: the offset does not resolve (`resolveOffset_outOfRange`). -/
theorem jmpWithNoSuchOffsetRegisterFaults : Obligations.JmpWithNoSuchOffsetRegisterFaults :=
  fun s b c cr o hs hskip ho =>
    ⟨_, exec_jmp_fault false b c cr o hs (jumpSkipped_of_not_skipHolds hskip) (resolveOffset_outOfRange o s ho),
      s.entersFault_enterFault _ _⟩

/-- Settles O26, condition by condition; past the first two the access is `checkBounds` of the spec's effective address
(`resolveAccess_of_named`). -/
theorem accessIsResolvedInTheSpecsOrder : Obligations.AccessIsResolvedInTheSpecsOrder := by
  intro ws f bf o s
  refine ⟨?_, fun hw ho => ?_, fun hw ho hout => ?_, fun hw ho hin => ?_⟩
  · rintro rfl
    rfl
  · simp only [resolveAccess, accessWidth_of_ne hw, resolveOffset_of_not_named ho]
  · rw [resolveAccess_of_named hw ho]
    exact if_neg (Nat.not_le.2 hout)
  · rw [resolveAccess_of_named hw ho]
    exact if_pos hin

/-- Settles O25: the bytes of the store are those of O24, and a read joins them by O23. -/
theorem mixedWidthReadsSeeTheStoredBytes : Obligations.MixedWidthReadsSeeTheStoredBytes := by
  intro m ea v
  obtain ⟨-, -, -, h0, h1, h2, h3, -⟩ := memWriteStoresTheLowBytesBigEndian m ea v
  have one (a : Nat) := (memReadIsBigEndian (m.write ea 4 v) a).1
  have two (a : Nat) := (memReadIsBigEndian (m.write ea 4 v) a).2.1
  have hv := v.isLt
  refine ⟨(one _).trans h0, (one _).trans h1, (one _).trans h2, (one _).trans h3, ?_, ?_, ?_⟩ <;> rw [two]
  · rw [h0, h1]
    omega
  · rw [h1, h2]
    omega
  · rw [h2, h3]
    omega

/-- R53, R58: `MemRead` of a selector's byte count is the big-endian value of its bytes. -/
theorem toNat_read_byteCount (m : Memory) (ea : Nat) {ws : BitVec 2} (hw : ws ≠ 3#2) :
    (m.read ea (byteCount ws)).toNat = bigEndian m ea ws := by
  obtain ⟨h1, h2, h4, -⟩ := memReadIsBigEndian m ea
  rcases selector_cases hw with rfl | rfl | rfl
  · exact h1
  · exact h2
  · exact h4

/-- R54, R58: the bytes of a `MemWrite` of a selector's byte count have the value of the word's low bits. -/
theorem bigEndian_write_byteCount (m : Memory) (ea : Nat) (v : Word) {ws : BitVec 2} (hw : ws ≠ 3#2) :
    bigEndian (m.write ea (byteCount ws) v) ea ws = v.toNat % 2 ^ (8 * byteCount ws) := by
  obtain ⟨h1, h2, h2', h4, h4', h4'', h4''', -⟩ := memWriteStoresTheLowBytesBigEndian m ea v
  have hv := v.isLt
  rcases selector_cases hw with rfl | rfl | rfl
  · exact h1
  · show byteAt (m.write ea 2 v) ea * 2 ^ 8 + byteAt (m.write ea 2 v) (ea + 1) = v.toNat % 2 ^ 16
    omega
  · show byteAt (m.write ea 4 v) ea * 2 ^ 24 + byteAt (m.write ea 4 v) (ea + 1) * 2 ^ 16 +
      byteAt (m.write ea 4 v) (ea + 2) * 2 ^ 8 + byteAt (m.write ea 4 v) (ea + 3) = v.toNat % 2 ^ 32
    omega

/-- Settles O27: the access resolves by O26, and `MemRead` has the value of its bytes (`toNat_read_byteCount`). -/
theorem ldLoadsBigEndianZeroExtended : Obligations.LdLoadsBigEndianZeroExtended := by
  intro s ws f r bf o hs hw ho hin
  have ha := (accessIsResolvedInTheSpecsOrder ws f bf o s).2.2.2 hw ho hin
  obtain ⟨t, ht, hv, hframe⟩ := exists_next_writesOnlyReg (exec_ld_running r hs ha)
  exact ⟨t, ht, by rw [hv, toNat_read_byteCount _ _ hw], hframe⟩

/-- Settles O28: the access resolves by O26, and `MemWrite` stores the low bytes (`bigEndian_write_byteCount`). -/
theorem putStoresTheLowBytesBigEndian : Obligations.PutStoresTheLowBytesBigEndian := by
  intro s ws f r bf o hs hw ho hin
  have ha := (accessIsResolvedInTheSpecsOrder ws f bf o s).2.2.2 hw ho hin
  exact ⟨_, exec_put_running r hs ha, bigEndian_write_byteCount _ _ _ hw, s.writesOnlyBytes_store _ _ _⟩

/-- Settles O29: the frame of a store. -/
theorem putWritesOnlyTheBytesOfItsResolvedAccess : Obligations.PutWritesOnlyTheBytesOfItsResolvedAccess :=
  fun s _ _ r _ _ _ hs ha => ⟨_, exec_put_running r hs ha, s.writesOnlyBytes_store _ _ _⟩

/-- Settles O30: the access fails by the first three clauses of O26, and both instructions enter its fault. -/
theorem ldAndPutFaultInTheSpecsOrder : Obligations.LdAndPutFaultInTheSpecsOrder := by
  intro s ws f r bf o hs i hi
  obtain ⟨hselector, hoffset, hbounds, -⟩ := accessIsResolvedInTheSpecsOrder ws f bf o s
  exact ⟨fun hw => exists_next_accessFault hs (hselector hw) hi,
    fun hw ho => exists_next_accessFault hs (hoffset hw ho) hi,
    fun hw ho hout => exists_next_accessFault hs (hbounds hw ho hout) hi⟩

/-- Settles O31: a base below 8, an offset below 2^19 and at most four bytes end at or below 524,298, so O26 resolves the
access. -/
theorem immediateOffsetsStayInMemory : Obligations.ImmediateOffsetsStayInMemory := by
  intro ws bf o s hbase hw
  have hea : effectiveAddress true bf o s = bf.toNat + o.toNat := by
    rw [effectiveAddress, hbase]
    rfl
  have hn : byteCount ws ≤ 4 := by rcases selector_cases hw with rfl | rfl | rfl <;> decide
  have hreach : effectiveAddress true bf o s + byteCount ws ≤ 524298 := by omega
  exact ⟨_, (accessIsResolvedInTheSpecsOrder ws true bf o s).2.2.2 hw (.inl rfl) (by omega), hea, hreach⟩

/-- Settles O32: O28, and then O27 in the state after the store, which has the same effective address. -/
theorem ldAfterPutGivesTheStoredValue : Obligations.LdAfterPutGivesTheStoredValue := by
  intro s ws f r q bf o hs hw ho hin
  obtain ⟨t, ht, hbytes, hframe⟩ := putStoresTheLowBytesBigEndian s ws f r bf o hs hw ho hin
  have hea := effectiveAddress_congr hframe.regs hframe.host.params f bf o
  obtain ⟨u, hu, hv, -⟩ :=
    ldLoadsBigEndianZeroExtended t ws f q bf o (hframe.latch.halted.trans hs) hw ho (hea ▸ hin)
  exact ⟨t, u, ht, hu, by rw [hv, hea, hbytes]⟩

end Sys2Proof.Proofs

/-! ### SETU's value, operand B = 0, and shifts that undo each other -/

namespace Sys2Proof.Machine

open Sys2Proof.Spec

/-- R153: the kept low 24 bits stay below bit 24, where the immediate is joined, so the two add. -/
theorem setuValue_toNat (old : Word) (imm : BitVec 7) :
    (setuValue old imm).toNat = imm.toNat * 2 ^ 24 + old.toNat % 2 ^ 24 := by
  have hkept : (old &&& 0x00FFFFFF#32).toNat = old.toNat % 2 ^ 24 := Nat.and_two_pow_sub_one_eq_mod old.toNat 24
  calc (setuValue old imm).toNat
    _ = (old &&& 0x00FFFFFF#32).toNat + imm.toNat * 2 ^ 24 :=
      or_place_toNat _ imm 24 (by decide) (hkept ▸ Nat.mod_lt _ (by decide))
    _ = imm.toNat * 2 ^ 24 + old.toNat % 2 ^ 24 := by rw [hkept, Nat.add_comm]

/-- R204: operand B is 0 exactly when its value is. -/
theorem operandB_eq_zero_iff (rb : RegIx) (f : Bool) (imm : BitVec 18) (s : State) :
    operandB rb f imm s = 0#32 ↔ operandBValue rb f imm s = 0 := by
  rw [← operandB_toNat, ← BitVec.toNat_inj]
  rfl

/-- R194 (a). -/
theorem rotateRight_rotateLeft (v : Word) {k : Nat} (hk : k < 32) : (v.rotateLeft k).rotateRight k = v := by
  refine BitVec.eq_of_getLsbD_eq fun j hj => ?_
  rw [rotateRight_getLsbD _ hk hj, rotateLeft_getLsbD v hk (Nat.mod_lt _ (by decide)),
    show ((j + k) % 32 + 32 - k) % 32 = j by omega]

/-- R194 (a). -/
theorem rotateLeft_rotateRight (v : Word) {k : Nat} (hk : k < 32) : (v.rotateRight k).rotateLeft k = v := by
  refine BitVec.eq_of_getLsbD_eq fun j hj => ?_
  rw [rotateLeft_getLsbD _ hk hj, rotateRight_getLsbD v hk (Nat.mod_lt _ (by decide)),
    show ((j + 32 - k) % 32 + k) % 32 = j by omega]

/-- R194 (b). -/
theorem rotateRight_eq_rotateLeft (v : Word) {k : Nat} (hk : k < 32) :
    v.rotateRight k = v.rotateLeft ((32 - k) % 32) := by
  refine BitVec.eq_of_getLsbD_eq fun j hj => ?_
  rw [rotateRight_getLsbD v hk hj, rotateLeft_getLsbD v (Nat.mod_lt _ (by decide)) hj,
    show (j + 32 - (32 - k) % 32) % 32 = (j + k) % 32 by omega]

/-- R194 (c): right then left clears the low `k` bits. -/
theorem toNat_shiftLeft_ushiftRight (v : Word) (k : Nat) :
    ((v >>> k) <<< k).toNat = v.toNat - v.toNat % 2 ^ k := by
  have hdiv : v.toNat / 2 ^ k * 2 ^ k = v.toNat - v.toNat % 2 ^ k := Nat.div_mul_self_eq_mod_sub_self
  rw [BitVec.toNat_shiftLeft, BitVec.toNat_ushiftRight, Nat.shiftRight_eq_div_pow, Nat.shiftLeft_eq, hdiv]
  exact Nat.mod_eq_of_lt ((Nat.sub_le _ _).trans_lt v.isLt)

/-- R194 (c): left then right clears the high `k` bits. -/
theorem toNat_ushiftRight_shiftLeft (v : Word) {k : Nat} (hk : k < 32) :
    ((v <<< k) >>> k).toNat = v.toNat % 2 ^ (32 - k) := by
  have hpow : 2 ^ 32 = 2 ^ (32 - k) * 2 ^ k := by rw [← Nat.pow_add, Nat.sub_add_cancel hk.le]
  rw [BitVec.toNat_ushiftRight, BitVec.toNat_shiftLeft, Nat.shiftRight_eq_div_pow, Nat.shiftLeft_eq, hpow,
    Nat.mul_mod_mul_right, Nat.mul_div_cancel _ (Nat.two_pow_pos k)]

/-- R104, R191: BSR by 0 is the identity, with or without rotate. -/
theorem shiftRightValue_zero (v : Word) (rot : Bool) : shiftRightValue v 0#5 rot = v := by
  cases rot with
  | false => exact BitVec.ushiftRight_zero v
  | true => rfl

/-- R104, R191: BSL by 0 is the identity, with or without rotate. -/
theorem shiftLeftValue_zero (v : Word) (rot : Bool) : shiftLeftValue v 0#5 rot = v := by
  cases rot with
  | false => exact BitVec.shiftLeft_zero v
  | true => rfl

/-- R10, R23: an instruction that reads what the one before it wrote gives its operator's value of that. -/
theorem exists_next_next_reg {i j : Instr} {s : State} {rd rq : RegIx} {v : Word} {g : Word → Word}
    (h : exec i s = .next ((s.writeReg rd v).withPcWe false))
    (h' : ∀ t : State, t.halted = s.halted → exec j t = .next ((t.writeReg rq (g (t.reg rd))).withPcWe false)) :
    ∃ t u, exec i s = .next t ∧ exec j t = .next u ∧ u.reg rq = g v := by
  obtain ⟨t, ht, hv, hframe⟩ := exists_next_writesOnlyReg h
  obtain ⟨u, hu, hvu, -⟩ := exists_next_writesOnlyReg (h' t hframe.latch.halted)
  exact ⟨t, u, ht, hu, by rw [hvu, hv]⟩

end Sys2Proof.Machine

/-! ### SETU, DIV, MOD, the shifts and the no-ops (spec/42_set.md, spec/43_arithmetic.md, spec/45_shift.md) -/

namespace Sys2Proof.Proofs

open Sys2Proof Sys2Proof.Machine Sys2Proof.Spec

/-- Settles O34: the value is `setuValue_toNat`, the frame that of a register write. -/
theorem setuReplacesBits30To24 : Obligations.SetuReplacesBits30To24 := by
  intro s rd imm ign hs
  obtain ⟨t, ht, hv, hframe⟩ := exists_next_writesOnlyReg (exec_setu_running rd imm ign hs)
  exact ⟨t, ht, by rw [hv, setuValue_toNat], hframe⟩

/-- Settles O35: SET then SETU leaves H * 2^24 + L, and every value below 2^31 is split so by its quotient and remainder. -/
theorem setThenSetuBuildsExactlyTheValuesBelow2To31 : Obligations.SetThenSetuBuildsExactlyTheValuesBelow2To31 := by
  intro s rd hs
  have build (sx : Bool) (l : BitVec 24) (h : BitVec 7) (ign : BitVec 18) :
      ∃ t u, exec (.set rd sx l) s = .next t ∧ exec (.setu rd h ign) t = .next u ∧
        (u.reg rd).toNat = h.toNat * 2 ^ 24 + l.toNat := by
    obtain ⟨t, u, ht, hu, hv⟩ := exists_next_next_reg (g := fun x => setuValue x h) (exec_set_running rd sx l hs)
      fun t hh => exec_setu_running rd h ign (hh.trans hs)
    refine ⟨t, u, ht, hu, ?_⟩
    have hl := l.isLt
    rw [hv, setuValue_toNat, setValue_toNat]
    split <;> omega
  refine ⟨fun sx l h ign => ?_, fun v hv => ?_⟩
  · obtain ⟨t, u, ht, hu, hval⟩ := build sx l h ign
    exact ⟨t, u, ht, hu, hval, by omega⟩
  · refine ⟨BitVec.ofNat 24 v.toNat, BitVec.ofNat 7 (v.toNat / 2 ^ 24), fun sx ign => ?_⟩
    obtain ⟨t, u, ht, hu, hval⟩ := build sx (BitVec.ofNat 24 v.toNat) (BitVec.ofNat 7 (v.toNat / 2 ^ 24)) ign
    refine ⟨t, u, ht, hu, BitVec.eq_of_toNat_eq ?_⟩
    rw [hval, BitVec.toNat_ofNat, BitVec.toNat_ofNat]
    omega

/-- Settles O40: operand B is not 0, so DIV completes, with the library's unsigned quotient. -/
theorem divWritesTheUnsignedQuotient : Obligations.DivWritesTheUnsignedQuotient := by
  intro s rd ra rb f imm hs hb
  obtain ⟨t, ht, hv, hframe⟩ :=
    exists_next_writesOnlyReg (exec_div_running rd ra rb f imm hs (mt (operandB_eq_zero_iff rb f imm s).1 hb))
  exact ⟨t, ht, by rw [hv, ← operandB_toNat]; exact BitVec.toNat_udiv, hframe⟩

/-- Settles O41: as O40, with the unsigned remainder. -/
theorem modWritesTheUnsignedRemainder : Obligations.ModWritesTheUnsignedRemainder := by
  intro s rd ra rb f imm hs hb
  obtain ⟨t, ht, hv, hframe⟩ :=
    exists_next_writesOnlyReg (exec_mod_running rd ra rb f imm hs (mt (operandB_eq_zero_iff rb f imm s).1 hb))
  exact ⟨t, ht, by rw [hv, ← operandB_toNat]; exact BitVec.toNat_umod, hframe⟩

/-- Settles O42: operand B is 0 (`operandB_eq_zero_iff`), so both fault. -/
theorem divAndModByZeroFault : Obligations.DivAndModByZeroFault := by
  intro s rd ra rb f imm hs hb
  have hzero := (operandB_eq_zero_iff rb f imm s).2 hb
  exact ⟨⟨_, exec_div_fault rd ra rb f imm hs hzero, s.entersFault_enterFault _ _⟩,
    ⟨_, exec_mod_fault rd ra rb f imm hs hzero, s.entersFault_enterFault _ _⟩⟩

/-- Settles O43, from the values of O40 and O41. -/
theorem divAndModReassembleTheDividend : Obligations.DivAndModReassembleTheDividend := by
  intro s rd rq ra rb f imm hs hb
  obtain ⟨t, ht, hquot, -⟩ := divWritesTheUnsignedQuotient s rd ra rb f imm hs hb
  obtain ⟨u, hu, hrem, -⟩ := modWritesTheUnsignedRemainder s rq ra rb f imm hs hb
  refine ⟨t, u, ht, hu, ?_, ?_⟩
  · rw [hquot, hrem]
    exact Nat.div_add_mod' _ _
  · rw [hrem]
    exact Nat.mod_lt _ (Nat.pos_of_ne_zero hb)

/-- Settles O49, law by law, each from the law of its values; one instruction reads the other's result
(`exists_next_next_reg`). -/
theorem shiftsAndRotationsUndoEachOther : Obligations.ShiftsAndRotationsUndoEachOther := by
  intro s rd rq rs k g g' hs
  have right (r q : RegIx) (k : BitVec 5) (rot : Bool) (ign : BitVec 16) (t : State) (h : t.halted = s.halted) :=
    exec_bsr_running r q k rot ign (h.trans hs)
  have left (r q : RegIx) (k : BitVec 5) (rot : Bool) (ign : BitVec 16) (t : State) (h : t.halted = s.halted) :=
    exec_bsl_running r q k rot ign (h.trans hs)
  refine ⟨?_, ?_, ?_, ?_, ?_⟩
  · obtain ⟨t, u, ht, hu, hv⟩ := exists_next_next_reg (g := fun v => shiftRightValue v k true)
      (left rd rs k true g s rfl) (right rq rd k true g')
    exact ⟨t, u, ht, hu, by simp [hv, rotateRight_rotateLeft _ k.isLt]⟩
  · obtain ⟨t, u, ht, hu, hv⟩ := exists_next_next_reg (g := fun v => shiftLeftValue v k true)
      (right rd rs k true g s rfl) (left rq rd k true g')
    exact ⟨t, u, ht, hu, by simp [hv, rotateLeft_rotateRight _ k.isLt]⟩
  · have hamount : (BitVec.ofNat 5 ((32 - k.toNat) % 32)).toNat = (32 - k.toNat) % 32 := by
      rw [BitVec.toNat_ofNat]
      omega
    refine ⟨_, _, right rd rs k true g s rfl, left rq rs _ true g' s rfl, ?_⟩
    simp only [State.reg_withPcWe, State.reg_writeReg_same, shiftRightValue_rotate, shiftLeftValue_rotate, hamount,
      rotateRight_eq_rotateLeft _ k.isLt]
  · obtain ⟨t, u, ht, hu, hv⟩ := exists_next_next_reg (g := fun v => shiftLeftValue v k false)
      (right rd rs k false g s rfl) (left rq rd k false g')
    exact ⟨t, u, ht, hu, hv ▸ toNat_shiftLeft_ushiftRight _ _⟩
  · obtain ⟨t, u, ht, hu, hv⟩ := exists_next_next_reg (g := fun v => shiftRightValue v k false)
      (left rd rs k false g s rfl) (right rq rd k false g')
    exact ⟨t, u, ht, hu, hv ▸ toNat_ushiftRight_shiftLeft _ k.isLt⟩

/-- Settles O50: the word is `encode_illegal_toNat`, the fault `exec_illegal_fault`. -/
theorem opcode15RaisesInvalidOpcode : Obligations.Opcode15RaisesInvalidOpcode := fun s rest =>
  ⟨encode_illegal_toNat rest, fun hs => ⟨_, exec_illegal_fault rest hs, s.entersFault_enterFault _ _⟩⟩

/-- Settles O51, encoding by encoding: each writes back the value its destination holds. -/
theorem noOpEncodingsChangeNothing : Obligations.NoOpEncodingsChangeNothing := by
  intro s r q imm rot ign hs i hi
  simp only [List.mem_cons, List.not_mem_nil, or_false] at hi
  rcases hi with rfl | rfl | rfl | rfl | rfl | rfl | rfl | rfl
  · exact exists_next_changesNothing (exec_add_running r r q true 0 hs) (by simp)
  · exact exists_next_changesNothing (exec_sub_running r r q true 0 hs) (by simp)
  · exact exists_next_changesNothing (exec_or_running r r r false imm hs) BitVec.or_self
  · exact exists_next_changesNothing (exec_and_running r r r false imm hs) BitVec.and_self
  · exact exists_next_changesNothing (exec_bsr_running r r 0 rot ign hs) (shiftRightValue_zero _ rot)
  · exact exists_next_changesNothing (exec_bsl_running r r 0 rot ign hs) (shiftLeftValue_zero _ rot)
  · exact exists_next_changesNothing (exec_mul_running r r q true 1 hs) (BitVec.mul_one _)
  · exact exists_next_changesNothing (exec_div_running r r q true 1 hs (show BitVec.setWidth 32 1#18 ≠ 0#32 by decide))
      BitVec.udiv_one

end Sys2Proof.Proofs

/-! ### Steps and the boundary -/

namespace Sys2Proof.Machine

/-- R10, R209: an instruction has a next state from every state. -/
theorem exists_exec (i : Instr) (s : State) : ∃ t, exec i s = .next t := by
  cases hs : s.halted with
  | true => exact ⟨_, exec_halted i hs⟩
  | false =>
    obtain ⟨t, ht, -⟩ := exec_running i hs
    exact ⟨t, ht⟩

/-- R239, R240: no step in a failed run. -/
theorem step_of_failed {s : State} (h : s.failed) : step s = .fault .halted := if_pos h

/-- R239, R240: no step in a finished run. -/
theorem step_of_finished {s : State} (h : s.finished) : step s = .fault .endOfRun := by
  simp only [step, h.1, h.2, Bool.false_eq_true, if_false]

/-- R239: elsewhere a step is the instruction at the PC, and then the host's part. -/
theorem step_of_exec {s t : State} {w : Word} (hs : s.halted = false) (hw : s.fetchWord = some w)
    (h : exec (decode w) s = .next t) : step s = .next t.sequence := by
  simp only [step, hs, hw, h, hostSequence, Bool.false_eq_true, if_false]

theorem exists_step {s : State} (hfail : ¬ s.failed) (hfin : ¬ s.finished) : ∃ t, step s = .next t := by
  have hs : s.halted = false := Bool.eq_false_of_not_eq_true hfail
  obtain ⟨w, hw⟩ := Option.ne_none_iff_exists'.1 fun hw => hfin ⟨hs, hw⟩
  obtain ⟨t, ht⟩ := exists_exec (decode w) s
  exact ⟨_, step_of_exec hs hw ht⟩

/-- R243: the host's part leaves a state that wrote the PC or faulted. -/
theorem State.sequence_of_done {t : State} (h : t.halted = true ∨ t.pcWe = true) : t.sequence = t := by
  rcases t.sequence_cases with ⟨-, heq⟩ | ⟨hp, hh, -⟩
  · exact heq
  · simp [hp, hh] at h

/-- R238, R243: the host advances every other state. -/
theorem State.sequence_of_pcWe_false {t : State} (h : t.pcWe = false) : t.sequence = t.advance := if_neg (by simp [h])

theorem State.advance_of_running {t : State} (h : t.halted = false) :
    t.advance = { t with pc := t.pc + t.params.pcStep } := if_neg (by simp [h])

theorem State.sameHost_sequence (t : State) : SameHost t t.sequence := by
  rcases t.sequence_cases with ⟨-, heq⟩ | ⟨-, -, heq⟩ <;> rw [heq] <;> exact ⟨rfl, rfl⟩

end Sys2Proof.Machine

/-! ### Steps, reset and halting (spec/70_reset_and_hazards.md, spec/60_exceptions.md) -/

namespace Sys2Proof.Proofs

open Sys2Proof Sys2Proof.Machine Sys2Proof.Spec

/-- Settles O52: a step is the instruction and then the host's part (`step_of_exec`), which advances or not. -/
theorem stepRunsTheInstructionAtThePc : Obligations.StepRunsTheInstructionAtThePc := by
  intro s t w hs hw ht
  rw [step_of_exec hs hw ht]
  by_cases hdone : t.halted = true ∨ t.pcWe = true
  · rw [if_pos hdone, State.sequence_of_done hdone]
  · obtain ⟨hh, hp⟩ := not_or.1 hdone
    rw [if_neg hdone, State.sequence_of_pcWe_false (Bool.eq_false_of_not_eq_true hp),
      State.advance_of_running (Bool.eq_false_of_not_eq_true hh), (exec_sameHost ht).params]

/-- Settles O53: presenting the word is executing it, and the host's part is the advance or nothing. -/
theorem stepPresentsTheWordAndThenAdvances : Obligations.StepPresentsTheWordAndThenAdvances := by
  intro s t w hs hw ht
  have hstep := step_of_exec hs hw ht
  exact ⟨fun hdone => hstep.trans (congrArg _ (State.sequence_of_done hdone)),
    fun _ hp => hstep.trans (congrArg _ (State.sequence_of_pcWe_false hp))⟩

/-- Settles O54: a failed run, a finished run, or a step (`exists_step`); the three exclude each other. -/
theorem stepStopsExactlyAtTheEndsOfARun : Obligations.StepStopsExactlyAtTheEndsOfARun := by
  intro s
  by_cases hfail : s.failed
  · have hfin : ¬ s.finished := fun h => by cases h.1.symm.trans hfail
    simp [step_of_failed hfail, hfail, hfin]
  · by_cases hfin : s.finished
    · simp [step_of_finished hfin, hfail, hfin]
    · obtain ⟨t, ht⟩ := exists_step hfail hfin
      simp [ht, hfail, hfin]

/-- Settles O56: neither the instruction nor the host's part changes the store or the parameters. -/
theorem noStepChangesTheInstructionStore : Obligations.NoStepChangesTheInstructionStore := by
  intro s t ht
  obtain ⟨-, w, u, -, hu, rfl⟩ := step_cases ht
  have himem := u.sameHost_sequence.imem.trans (exec_sameHost hu).imem
  exact ⟨⟨himem, u.sameHost_sequence.params.trans (exec_sameHost hu).params⟩, fun a => by rw [himem]⟩

/-- Settles O55, by the laws of the store: the word is read back, every other address is left. -/
theorem placedWordIsTheOneFetched : Obligations.PlacedWordIsTheOneFetched := by
  intro s nbits w hn
  refine ⟨cellLookup_put_same _ _ _, ?_, fun a ha => cellLookup_put_other _ _ ha, rfl⟩
  simp only [decodeTableWord, decodeBits, if_pos hn, tableWord]

/-- Settles O15. -/
theorem resetStateIsAllZero : Obligations.ResetStateIsAllZero :=
  ⟨State.reg_reset, rfl, Memory.readByte_nil, rfl, rfl, rfl⟩

/-- Settles O16: the next state is `applyReset`, which takes the reset values of O15 and keeps host and parameters. -/
theorem presentingResetGivesTheResetValues : Obligations.PresentingResetGivesTheResetValues := fun _ _ _ =>
  ⟨_, rfl, State.reg_reset, rfl, Memory.readByte_nil, rfl, rfl, rfl, ⟨rfl, rfl⟩⟩

/-- Settles O17: `exec_halted`, `advance_halted_eq` and `step_of_failed`. -/
theorem haltedCoreExecutesNothing : Obligations.HaltedCoreExecutesNothing := fun i s hs =>
  ⟨⟨_, exec_halted i hs, s.changesNothing_withPcWe⟩, congrArg _ (s.advance_halted_eq hs), step_of_failed hs⟩

/-- Settles O18, request by request: the next state differs from the halted one at most in `pc_we`. -/
theorem onlyResetLeavesTheHaltedState : Obligations.OnlyResetLeavesTheHaltedState := by
  rintro ⟨rst, word, adv⟩ s hs hrst
  cases hrst
  have same (b : Bool) : (s.withPcWe b).halted = true ∧ SameLatch s (s.withPcWe b) ∧ SameRegs s (s.withPcWe b) ∧
      (s.withPcWe b).pc = s.pc ∧ SameMemory s (s.withPcWe b) ∧ SameHost s (s.withPcWe b) :=
    ⟨hs, ⟨rfl, rfl, rfl⟩, fun _ => rfl, rfl, fun _ => rfl, ⟨rfl, rfl⟩⟩
  match word, adv with
  | none, false => exact ⟨_, rfl, same s.pcWe⟩
  | none, true => exact ⟨s.withPcWe s.pcWe, congrArg _ (s.advance_halted_eq hs), same s.pcWe⟩
  | some w, false => exact ⟨_, exec_halted (decode w) hs, same false⟩
  | some w, true => exact ⟨_, respond_execWithAdvance_halted w hs, same false⟩

/-- Settles O19: the next state is `advance`, which writes the PC alone. -/
theorem advanceAddsPcStep : Obligations.AdvanceAddsPcStep := by
  intro s hs
  refine ⟨s.advance, rfl, ?_, s.reg_advance, fun a => by rw [State.advance_mem], ⟨by simp, by simp, by simp⟩,
    ⟨by simp, by simp⟩, by simp⟩
  rw [s.advance_pc_running hs, BitVec.toNat_add]

/-- Settles O10: what halts a running CORE is the entry of one of the instruction's faults. -/
theorem eachInstructionRaisesOnlyItsFaults : Obligations.EachInstructionRaisesOnlyItsFaults :=
  fun _ _ _ => exists_entersFault_of_exec

end Sys2Proof.Proofs

/-! ### Lines of assembly -/

namespace Sys2Proof.Machine

open Sys2Proof.Spec

/-- R92, R110: a register offset of JMP, LD and PUT names a register. -/
def offsetsNamed : Instr → Prop
  | .jmp f _ _ _ o => OffsetNamed f o
  | .ld _ f _ _ o => OffsetNamed f o
  | .put _ f _ _ o => OffsetNamed f o
  | _ => True

theorem offsetsNamed_iff (i : Instr) :
    offsetsNamed i ↔
      (∀ f b c cr o, i = .jmp f b c cr o → OffsetNamed f o) ∧
      (∀ ws f r bf o, i = .ld ws f r bf o ∨ i = .put ws f r bf o → OffsetNamed f o) := by
  cases i with
  | jmp f b c cr o =>
    refine ⟨fun h => ⟨?_, by simp⟩, fun h => h.1 _ _ _ _ _ rfl⟩
    rintro _ _ _ _ _ ⟨⟩
    exact h
  | ld ws f r bf o =>
    refine ⟨fun h => ⟨by simp, ?_⟩, fun h => h.2 _ _ _ _ _ (.inl rfl)⟩
    rintro _ _ _ _ _ (hi | hi) <;> cases hi
    exact h
  | put ws f r bf o =>
    refine ⟨fun h => ⟨by simp, ?_⟩, fun h => h.2 _ _ _ _ _ (.inr rfl)⟩
    rintro _ _ _ _ _ (hi | hi) <;> cases hi
    exact h
  | _ => simp [offsetsNamed]

/-- R110: the offset of a line is an immediate or names a register. -/
theorem AsmOffset.offsetNamed {n : Nat} (hn : 3 ≤ n) (off : AsmOffset n) : OffsetNamed off.flag off.value := by
  cases off with
  | imm v => exact .inl rfl
  | reg r =>
    have hr := r.isLt
    have hv : (AsmOffset.reg r : AsmOffset n).value.toNat = r.toNat := BitVec.toNat_setWidth_of_le hn
    exact .inr (by omega)

/-- R110: every offset that is an immediate or names a register is one of a line. -/
theorem exists_asmOffset {n : Nat} {f : Bool} {o : BitVec n} (h : OffsetNamed f o) :
    ∃ off : AsmOffset n, off.flag = f ∧ off.value = o := by
  cases f with
  | true => exact ⟨.imm o, rfl, rfl⟩
  | false =>
    have ho : o.toNat ≤ 7 := h.resolve_left (by decide)
    refine ⟨.reg (BitVec.ofNat 3 o.toNat), rfl, BitVec.eq_of_toNat_eq ?_⟩
    rw [AsmOffset.value, BitVec.toNat_setWidth, BitVec.toNat_ofNat, Nat.mod_eq_of_lt (a := o.toNat) (by omega),
      Nat.mod_eq_of_lt o.isLt]

/-- R110: the suffixes write every width selector but 3. -/
theorem exists_asmWidth {ws : BitVec 2} (h : ws ≠ 3#2) : ∃ width : AsmWidth, width.selector = ws := by
  rcases selector_cases h with rfl | rfl | rfl
  · exact ⟨.b, rfl⟩
  · exact ⟨.h, rfl⟩
  · exact ⟨.w, rfl⟩

/-- A line that is not a raw word. -/
def Asm.IsForm (a : Asm) : Prop := ∀ w, a ≠ .word w

/-- R110: every format A instruction has a line, with its ignored field 0. -/
theorem exists_formatALine (op : AsmOp) (rd ra rb : RegIx) (f : Bool) (imm : BitVec 18) :
    ∃ a : Asm, a.IsForm ∧ a.assemble = formatAWithoutIgnored op.instr rd ra rb f imm := by
  cases f with
  | true => exact ⟨.formatA op rd ra (.imm imm), nofun, rfl⟩
  | false => exact ⟨.formatA op rd ra (.reg rb), nofun, rfl⟩

/-- R110: every legal instruction whose register offset names a register has a line, once its ignored fields are 0. -/
theorem exists_assemble_eq_withoutIgnored {i : Instr} (hwf : i.wf = true) (hoff : offsetsNamed i) :
    ∃ a : Asm, a.IsForm ∧ a.assemble = i.withoutIgnored := by
  cases i with
  | jmp f b c cr o =>
    obtain ⟨off, rfl, rfl⟩ := exists_asmOffset hoff
    cases c with
    | true => exact ⟨.jmp b off (some cr), nofun, rfl⟩
    | false => exact ⟨.jmp b off none, nofun, rfl⟩
  | ld ws f r bf o =>
    obtain ⟨off, rfl, rfl⟩ := exists_asmOffset hoff
    obtain ⟨width, rfl⟩ := exists_asmWidth (of_decide_eq_true hwf)
    exact ⟨.ld width r bf off, nofun, rfl⟩
  | put ws f r bf o =>
    obtain ⟨off, rfl, rfl⟩ := exists_asmOffset hoff
    obtain ⟨width, rfl⟩ := exists_asmWidth (of_decide_eq_true hwf)
    exact ⟨.put width r bf off, nofun, rfl⟩
  | set rd sx imm => exact ⟨.set rd imm sx, nofun, rfl⟩
  | setu rd imm ign => exact ⟨.setu rd imm, nofun, rfl⟩
  | add rd ra rb f imm => exact exists_formatALine .add rd ra rb f imm
  | sub rd ra rb f imm => exact exists_formatALine .sub rd ra rb f imm
  | mul rd ra rb f imm => exact exists_formatALine .mul rd ra rb f imm
  | div rd ra rb f imm => exact exists_formatALine .div rd ra rb f imm
  | mod rd ra rb f imm => exact exists_formatALine .mod rd ra rb f imm
  | and rd ra rb f imm => exact exists_formatALine .and rd ra rb f imm
  | or rd ra rb f imm => exact exists_formatALine .or rd ra rb f imm
  | xor rd ra rb f imm => exact exists_formatALine .xor rd ra rb f imm
  | bsr rd rs k rot ign => exact ⟨.bsr rd rs k rot, nofun, rfl⟩
  | bsl rd rs k rot ign => exact ⟨.bsl rd rs k rot, nofun, rfl⟩
  | illegal rest => cases hwf

/-- R110: a line that is not a raw word stands for a legal instruction with its ignored fields 0 and a register offset that
names a register. -/
theorem assemble_legal {a : Asm} (h : a.IsForm) :
    a.assemble.wf = true ∧ a.assemble.withoutIgnored = a.assemble ∧ offsetsNamed a.assemble := by
  cases a with
  | jmp rb off skip => cases skip <;> exact ⟨rfl, rfl, off.offsetNamed (by decide)⟩
  | ld width rd base off => cases width <;> exact ⟨rfl, rfl, off.offsetNamed (by decide)⟩
  | put width rs base off => cases width <;> exact ⟨rfl, rfl, off.offsetNamed (by decide)⟩
  | formatA op rd ra src => cases op <;> cases src <;> exact ⟨rfl, rfl, trivial⟩
  | word w => exact absurd rfl (h w)
  | _ => exact ⟨rfl, rfl, trivial⟩

end Sys2Proof.Machine

/-! ### Assembly (spec/30_encoding.md) -/

namespace Sys2Proof.Proofs

open Sys2Proof Sys2Proof.Machine Sys2Proof.Spec

/-- Settles O7: a line gives a legal instruction (`assemble_legal`), and every one of those is given by the line of
`exists_assemble_eq_withoutIgnored`; a raw word loses no bit (`encode_decode`). -/
theorem assemblyWritesTheLegalInstructionsWithIgnoredFieldsZero :
    Obligations.AssemblyWritesTheLegalInstructionsWithIgnoredFieldsZero := by
  refine ⟨fun i => ?_, encode_decode⟩
  rw [← offsetsNamed_iff]
  constructor
  · rintro ⟨a, ha, rfl⟩
    exact assemble_legal ha
  · rintro ⟨hwf, hign, hoff⟩
    obtain ⟨a, ha, heq⟩ := exists_assemble_eq_withoutIgnored hwf hoff
    exact ⟨a, ha, heq.trans hign⟩

end Sys2Proof.Proofs
